-- ==== Sys2Proof/Word.lean ====
section
/-! DEFINITION. The bit-vector types of the PFC.

A byte is 8 bits, bit 0 the least significant (00_scope.md R7); registers are 32 bits (10_state.md
section 2). Sizes and offsets are natural numbers and never wrap (R7), so they are `Nat`. -/

namespace Sys2Proof

/-- A sample, a channel or a buffer byte (00_scope.md R6, SAMPLE_BITS). -/
abbrev Byte := BitVec 8

/-- A host-visible register or a command word (10_state.md R21 to R28). -/
abbrev Word := BitVec 32

end Sys2Proof
end

