-- ==== Sys2Proof/Config.lean ====
section
/-! DEFINITION. What is fixed for one PFC: the parameters of 00_scope.md R6, the closed sets of names
the spec uses, and the free values (constants without a body, about which nothing can be proved). -/

namespace Sys2Proof

/-- The output colour order, CTRL.ORDER (10_state.md R26): 0 = RGB, 1 = BGR. -/
inductive Order
  | rgb
  | bgr
deriving DecidableEq, Repr

/-- The six layout classes (30_encoding.md R85). -/
inductive LayoutClass
  | packedRgb24
  | rgb565
  | packedYuv422
  | planarYuv420
  | vendor
  | unsupported
deriving DecidableEq, Repr

/-- The open parameter RGB565_UNPACK (00_scope.md R6; 92_eei_decisions.md D17) as plain data: the
spec's default, or any other function, one for each number (log entry 8). -/
inductive Unpack565
  | zeroFill
  | other (n : Nat)
deriving DecidableEq, Repr

/-- The open parameters of a PFC (92_eei_decisions.md, last line). `scratchCap` is SCRATCH_CAP in
bytes, `none` being "unbounded" (log entry 7). -/
structure Params where
  scratchCap : Option Nat
  unpack     : Unpack565
deriving DecidableEq, Repr

/-- ERRMSG_LEN (00_scope.md R6). -/
def Config.errmsgLen : Nat := 32

/-- PIXEL_BYTES (00_scope.md R6). -/
def Config.pixelBytes : Nat := 3

/-- FREE VALUE: the byte the host's source buffer holds at an offset the host has not loaded in the
model (10_state.md R38, "whatever the host holds"; log entry 4). -/
opaque Config.srcByte : Nat → BitVec 8

/-- FREE VALUE: the byte the host's destination buffer holds at an offset nothing has written
(10_state.md R38; log entry 4). -/
opaque Config.dstByte : Nat → BitVec 8

/-- FREE VALUE: the unspecified byte at an offset, for each draw: fresh scratch memory
(46_dispatcher.md R217; log entry 5) and DST after a failing command (60_exceptions.md R247; log entry 6). -/
opaque Config.freshByte : Nat → Nat → BitVec 8

/-- FREE VALUE: the (R, G, B) bytes of a 16-bit word under a replaced RGB565_UNPACK, as one 24-bit
value with R on top (92_eei_decisions.md D17; log entry 8). -/
opaque Config.otherUnpack : Nat → BitVec 16 → BitVec 24

end Sys2Proof
end

