-- ==== Sys2Proof/Syntax.lean ====
section
/-! DEFINITION. The commands of the PFC: one constructor for each row of spec/opcode_table.json. -/

namespace Sys2Proof

/-- The fields of format CMD besides the code (30_encoding.md R81): W, H, SRC_LEN, DST_LEN of 32 bits
each and ORDER. START is 1 in every command and the reserved bits are ignored, so neither is a field. -/
structure CmdFields where
  w      : Word
  h      : Word
  srcLen : Word
  dstLen : Word
  order  : Order
deriving DecidableEq, Repr

/-- The CONVERT command under each code of the registry (30_encoding.md R84), and under any other
code (46_dispatcher.md R221). -/
inductive Instr
  | convertRGB3 (c : CmdFields)
  | convertBGR3 (c : CmdFields)
  | convertRGBP (c : CmdFields)
  | convertYUYV (c : CmdFields)
  | convertYVYU (c : CmdFields)
  | convertUYVY (c : CmdFields)
  | convertYU12 (c : CmdFields)
  | convertYV12 (c : CmdFields)
  | convertS501 (c : CmdFields)
  | convertS505 (c : CmdFields)
  | convertS508 (c : CmdFields)
  | convertUnsupported (code : Word) (c : CmdFields)
deriving DecidableEq, Repr

/-- The fields of a command. -/
def Instr.fields : Instr → CmdFields
  | .convertRGB3 c => c
  | .convertBGR3 c => c
  | .convertRGBP c => c
  | .convertYUYV c => c
  | .convertYVYU c => c
  | .convertUYVY c => c
  | .convertYU12 c => c
  | .convertYV12 c => c
  | .convertS501 c => c
  | .convertS505 c => c
  | .convertS508 c => c
  | .convertUnsupported _ c => c

end Sys2Proof
end

