-- ==== Sys2Proof/WellFormed.lean ====
section
/-! DEFINITION. When a term of `Instr` stands for a command word: the code of the default row is none
of the eleven supported codes (30_encoding.md R84, R88). Every value of every other field is legal
(30_encoding.md R81). -/

namespace Sys2Proof

/-- The eleven supported codes, in the order of the registry (30_encoding.md R84). -/
def supportedCodes : List Word :=
  [0x33424752, 0x33524742, 0x50424752, 0x56595559, 0x55595659, 0x59565955,
   0x32315559, 0x32315659, 0x31303553, 0x35303553, 0x38303553]

/-- A command is well formed when its code selects its own row. -/
def WellFormed : Instr → Bool
  | .convertRGB3 _ => true
  | .convertBGR3 _ => true
  | .convertRGBP _ => true
  | .convertYUYV _ => true
  | .convertYVYU _ => true
  | .convertUYVY _ => true
  | .convertYU12 _ => true
  | .convertYV12 _ => true
  | .convertS501 _ => true
  | .convertS505 _ => true
  | .convertS508 _ => true
  | .convertUnsupported code _ => !supportedCodes.contains code

end Sys2Proof
end

