-- ==== Sys2Proof/Decode.lean ====
section
/-! DEFINITION. The command words: their layout as bytes, the registry, the decoder and the encoder.

A command is six 32-bit words w0..w5 (30_encoding.md R80, R81). As bytes they stand at the register
offsets 0x00 to 0x17 (10_state.md R21 to R26), the least significant byte of a word first (log entry 3). -/

namespace Sys2Proof

/-- The six words of a command (30_encoding.md R80). -/
structure CmdWords where
  w0 : Word
  w1 : Word
  w2 : Word
  w3 : Word
  w4 : Word
  w5 : Word
deriving DecidableEq, Repr

/-- Why a word sequence is no command. -/
inductive DecodeError
  /-- Fewer than 24 bytes: the length of a command is always six words (30_encoding.md R89). -/
  | tooShort
  /-- CTRL bit 1 is 0: "a CTRL write with START = 0 is not a command" (30_encoding.md R88). -/
  | startClear
deriving DecidableEq, Repr

/-- What the decoder answers: a command and the bytes after it, or why there is none. -/
inductive DecodeResult
  | ok (i : Instr) (rest : List Byte)
  | reject (e : DecodeError)
deriving DecidableEq, Repr

/-- CTRL bit 0 as an order (30_encoding.md R86): 0 = RGB, 1 = BGR. -/
def orderOfBit : Bool → Order
  | false => .rgb
  | true => .bgr

/-- The CTRL bit of an order (10_state.md R26). -/
def bitOfOrder : Order → Bool
  | .rgb => false
  | .bgr => true

/-- A CTRL value with the given START and ORDER bits and the reserved bits 0 (10_state.md R26). -/
def ctrlWord (start : Bool) (order : Order) : Word :=
  (if start then 2#32 else 0#32) ||| (if bitOfOrder order then 1#32 else 0#32)

/-- A code assembled from its four characters (30_encoding.md R82). -/
def fourcc (c0 c1 c2 c3 : Byte) : Word := c3 ++ c2 ++ c1 ++ c0

/-- `tag4(CODE)` without its terminator: the four bytes of the code, low byte first (30_encoding.md R83). -/
def tagBytes (code : Word) : List Byte :=
  [code.extractLsb' 0 8, code.extractLsb' 8 8, code.extractLsb' 16 8, code.extractLsb' 24 8]

/-- `tag4(CODE)`: the four bytes and the terminator (30_encoding.md R83). -/
def tag4 (code : Word) : List Byte := tagBytes code ++ [0x00]

/-- One row of the registry: a code and the command it selects. -/
structure RegistryRow where
  code  : Word
  build : CmdFields → Instr

/-- The registry (30_encoding.md R84). -/
def registry : List RegistryRow :=
  [⟨0x33424752, .convertRGB3⟩, ⟨0x33524742, .convertBGR3⟩, ⟨0x50424752, .convertRGBP⟩,
   ⟨0x56595559, .convertYUYV⟩, ⟨0x55595659, .convertYVYU⟩, ⟨0x59565955, .convertUYVY⟩,
   ⟨0x32315559, .convertYU12⟩, ⟨0x32315659, .convertYV12⟩,
   ⟨0x31303553, .convertS501⟩, ⟨0x35303553, .convertS505⟩, ⟨0x38303553, .convertS508⟩]

/-- "A code selects a row by exact 32-bit equality; a code equal to no row selects UNSUPPORTED"
(30_encoding.md R84). -/
def selectRow (code : Word) (c : CmdFields) : Instr :=
  match registry.find? (fun row => row.code == code) with
  | some row => row.build c
  | none => .convertUnsupported code c

/-- The fields of the words w1..w5 (30_encoding.md R81); w5[31:2] is ignored. -/
def fieldsOfWords (ws : CmdWords) : CmdFields :=
  { w := ws.w1, h := ws.w2, srcLen := ws.w3, dstLen := ws.w4, order := orderOfBit (ws.w5.getLsbD 0) }

/-- The START bit of a CTRL value (10_state.md R26). -/
def startBit (ctrl : Word) : Bool := ctrl.getLsbD 1

/-- Decoding six words (30_encoding.md R81, R84): START must be 1. -/
def decodeWords (ws : CmdWords) : DecodeResult :=
  if startBit ws.w5 then .ok (selectRow ws.w0 (fieldsOfWords ws)) [] else .reject .startClear

/-- A word from its four bytes, the least significant first. -/
def wordOfBytes (b0 b1 b2 b3 : Byte) : Word := b3 ++ b2 ++ b1 ++ b0

/-- The four bytes of a word, the least significant first. -/
def bytesOfWord (w : Word) : List Byte :=
  [w.extractLsb' 0 8, w.extractLsb' 8 8, w.extractLsb' 16 8, w.extractLsb' 24 8]

/-- The first word of a byte sequence and the bytes after it. -/
def takeWord : List Byte → Option (Word × List Byte)
  | b0 :: b1 :: b2 :: b3 :: rest => some (wordOfBytes b0 b1 b2 b3, rest)
  | _ => none

/-- The first six words of a byte sequence and the bytes after them. -/
def takeWords (bs : List Byte) : Option (CmdWords × List Byte) := do
  let (w0, bs) ← takeWord bs
  let (w1, bs) ← takeWord bs
  let (w2, bs) ← takeWord bs
  let (w3, bs) ← takeWord bs
  let (w4, bs) ← takeWord bs
  let (w5, bs) ← takeWord bs
  return (⟨w0, w1, w2, w3, w4, w5⟩, bs)

/-- Decoding any bytes: the first 24 are the six words. -/
def decode (bs : List Byte) : DecodeResult :=
  match takeWords bs with
  | none => .reject .tooShort
  | some (ws, rest) =>
    match decodeWords ws with
    | .ok i _ => .ok i rest
    | .reject e => .reject e

/-- The code of a command (30_encoding.md R84). -/
def Instr.code : Instr → Word
  | .convertRGB3 _ => 0x33424752
  | .convertBGR3 _ => 0x33524742
  | .convertRGBP _ => 0x50424752
  | .convertYUYV _ => 0x56595559
  | .convertYVYU _ => 0x55595659
  | .convertUYVY _ => 0x59565955
  | .convertYU12 _ => 0x32315559
  | .convertYV12 _ => 0x32315659
  | .convertS501 _ => 0x31303553
  | .convertS505 _ => 0x35303553
  | .convertS508 _ => 0x38303553
  | .convertUnsupported code _ => code

/-- Encoding: the six words of a command, START = 1 and the reserved bits 0 (30_encoding.md R81). -/
def encode (i : Instr) : CmdWords :=
  { w0 := i.code, w1 := i.fields.w, w2 := i.fields.h, w3 := i.fields.srcLen, w4 := i.fields.dstLen,
    w5 := ctrlWord true i.fields.order }

/-- The bytes of six words, in the order of their register offsets. -/
def bytesOfWords (ws : CmdWords) : List Byte :=
  bytesOfWord ws.w0 ++ bytesOfWord ws.w1 ++ bytesOfWord ws.w2 ++ bytesOfWord ws.w3
    ++ bytesOfWord ws.w4 ++ bytesOfWord ws.w5

/-- The 24 bytes of a command. -/
def encodeBytes (i : Instr) : List Byte := bytesOfWords (encode i)

/-- The six words of a command whose low `nbits` bits are `w`, every bit above being 0, but for START:
where the row is given too few bits to reach CTRL bit 1, START is 1, since it "must be 1 in a command
word" (30_encoding.md R81; log entry 3). -/
def tableWords (nbits w : Nat) : CmdWords :=
  let v := w % 2 ^ nbits
  let word (k : Nat) : Word := BitVec.ofNat 32 (v / 2 ^ (32 * k))
  { w0 := word 0, w1 := word 1, w2 := word 2, w3 := word 3, w4 := word 4,
    w5 := if nbits ≤ 161 then word 5 ||| 2#32 else word 5 }

/-- The command the decoder reads from a table word: the words are laid out as bytes and decoded. -/
def decodeTableWord (nbits w : Nat) : Option Instr :=
  match decode (bytesOfWords (tableWords nbits w)) with
  | .ok i _ => some i
  | .reject _ => none

end Sys2Proof
end

