-- ==== Sys2Proof/Machine/State.lean ====
section
/-! DEFINITION. The state of the PFC and of the host beside it (10_state.md R20), why a step can stop,
and the state after reset (10_state.md R38). -/

namespace Sys2Proof.Machine

/-- One byte space (20_memory.md R50): the bytes it is known to hold, offsets strictly rising. An offset
that is not listed has no value here; what a read of it gives is `State.byteAt`'s. -/
abbrev Memory := List Host.Cell

/-- The one canonical form of a memory. Since an unlisted offset has no value, no listed byte can equal it. -/
abbrev Memory.wf (m : Memory) : Prop := m.Pairwise (fun p q => p.1 < q.1)

/-- The four byte spaces (20_memory.md R50). -/
inductive Space
  | src
  | dst
  | scry
  | scrr
deriving DecidableEq, Repr

/-- The two logical scratch buffers (10_state.md R32). -/
inductive Buf
  | scry
  | scrr
deriving DecidableEq, Repr

/-- STATUS (10_state.md R27); bits [31:4] read 0 and hold nothing. -/
structure Status where
  busy   : Bool
  done   : Bool
  result : BitVec 2
deriving DecidableEq, Repr

/-- The latched command `L_*` (10_state.md R31). -/
structure Latch where
  code   : Word
  w      : Word
  h      : Word
  srcLen : Word
  dstLen : Word
  order  : Order
deriving DecidableEq, Repr

/-- The sequencer's phases (10_state.md R33). -/
inductive Phase
  | idle
  | check
  | unpack
  | decode
  | swap
  | finish
deriving DecidableEq, Repr

/-- The chroma terms (10_state.md R30): 16 bits, two's complement. -/
structure Terms where
  u1 : BitVec 16
  rg : BitVec 16
  v1 : BitVec 16
deriving DecidableEq, Repr

/-- An output pixel (10_state.md R30). -/
structure Pixel where
  r : Byte
  g : Byte
  b : Byte
deriving DecidableEq, Repr

/-- The working registers (10_state.md R30), `row` and `col` of the sequencer among them (R33). -/
@[ext] structure Work where
  y0    : Byte
  y1    : Byte
  u     : Byte
  v     : Byte
  terms : Terms
  px    : Pixel
  row   : Word
  col   : Word
  ps    : Word
  py    : Word
  pu    : Word
  pv    : Word
  pd    : Word
  tmp16 : BitVec 16
deriving DecidableEq, Repr

/-- One scratch buffer of the controller (10_state.md R32) with its bytes. `draw` is the MODEL's own: it
names the free values its unwritten bytes hold (46_dispatcher.md R217; log entry 5). -/
structure Scratch where
  alloc : Bool
  size  : Nat
  mem   : Memory
  draw  : Nat
deriving DecidableEq, Repr

/-- The host's accesses (30_encoding.md R91; 70_reset_and_hazards.md R270). -/
inductive HostOp
  /-- `WR`: a 32-bit register write at a byte offset. -/
  | wr (off : Nat) (v : Word)
  /-- `RD`: a 32-bit register read at a byte offset. -/
  | rd (off : Nat)
  /-- `LOADSRC`: fill SRC from offset 0. -/
  | loadSrc (bytes : List Byte)
  /-- `READDST`: read the first `n` bytes of DST. -/
  | readDst (n : Nat)
  /-- The external reset. -/
  | reset
deriving DecidableEq, Repr

/-- What the last RD or READDST answered. -/
inductive Reply
  | nothing
  | word (v : Word)
  | bytes (bs : List Byte)
deriving DecidableEq, Repr

/-- The error kinds with which a command can end (60_exceptions.md R240). -/
inductive ErrKind
  | unsupportedFormat (code : Word)
  | allocationFailure
  | invalidArgument
deriving DecidableEq, Repr

/-- The whole state. `params`, `dstJunk`, `draws`, `bus` and `reply` are the MODEL's own (INVENTORY.md,
State); everything else is the spec's. -/
structure State where
  /-- FORMAT.CODE (10_state.md R21). -/
  format  : Word
  /-- WIDTH.W (R22). -/
  width   : Word
  /-- HEIGHT.H (R23). -/
  height  : Word
  /-- SRC_LEN.LEN (R24). -/
  srcLen  : Word
  /-- DST_LEN.LEN (R25). -/
  dstLen  : Word
  /-- CTRL.ORDER (R26). -/
  order   : Order
  /-- STATUS (R27). -/
  status  : Status
  /-- ERRMSG `M[0..31]` (R28). -/
  errmsg  : Vector Byte 32
  /-- The latched command (R31). -/
  latch   : Latch
  /-- The sequencer's phase (R33). -/
  phase   : Phase
  /-- The working registers (R30). -/
  work    : Work
  /-- The planar-YUV scratch buffer (R32). -/
  scry    : Scratch
  /-- The RGB scratch buffer (R32). -/
  scrr    : Scratch
  /-- The source frame (20_memory.md R50). -/
  src     : Memory
  /-- The output image (20_memory.md R50). -/
  dst     : Memory
  /-- The DST ranges that failing commands left unspecified, newest first, as (length, draw): an offset
  that `dst` does not list takes its free value from the first entry that reaches it (log entry 6). -/
  dstJunk : List (Nat × Nat)
  /-- The next draw of free values (log entry 5). -/
  draws   : Nat
  /-- The open parameters of this PFC; no step changes them (log entries 7 and 8). -/
  params  : Params
  /-- The host's accesses still to come (log entry 1). -/
  bus     : List HostOp
  /-- What the last access answered (log entry 12). -/
  reply   : Reply
deriving DecidableEq, Repr

/-- Why a step stops with a fault. -/
inductive Fault
  /-- Raised by READDST of more than DST_LEN bytes: offsets from DST_LEN on are outside DST
  (20_memory.md R50). Safe: the model stops (log entry 14). -/
  | dstReadOutOfRange
deriving DecidableEq, Repr

/-- Why a step has no meaning. -/
inductive Refusal
  /-- An instruction without a meaning yet; no arm of `exec` answers it. Safe. -/
  | notModelled (mnemonic : String)
  /-- Raised by WR and RD at an offset that is no multiple of 4: "any other register access is outside
  this spec and a model refuses it" (20_memory.md R60; 93_implementation_defined.md U7). Safe (log entry 15). -/
  | unalignedRegisterAccess
  /-- Raised by LOADSRC and READDST while STATUS.BUSY = 1: the host must not touch the buffers during a
  command, treatment "refuse" (20_memory.md R71; 93_implementation_defined.md U5). Safe (log entry 16). -/
  | bufferTouchedDuringCommand
deriving DecidableEq, Repr

/-- The working registers after reset: unspecified by 10_state.md R38, zeros here (log entry 9). -/
def Work.reset : Work :=
  { y0 := 0, y1 := 0, u := 0, v := 0, terms := ⟨0, 0, 0⟩, px := ⟨0, 0, 0⟩, row := 0, col := 0,
    ps := 0, py := 0, pu := 0, pv := 0, pd := 0, tmp16 := 0 }

/-- The state after reset (10_state.md R38). The latches, the working registers and the scratch sizes
are unspecified there and zero here (log entry 9); the open parameters take SCRATCH_CAP unbounded (log
entry 7) and the default unpack (log entry 8); no host access is pending (log entry 1). -/
def State.reset : State :=
  { format := 0, width := 0, height := 0, srcLen := 0, dstLen := 0, order := .rgb,
    status := ⟨false, false, 0⟩, errmsg := Vector.replicate 32 0,
    latch := ⟨0, 0, 0, 0, 0, .rgb⟩, phase := .idle, work := Work.reset,
    scry := ⟨false, 0, [], 0⟩, scrr := ⟨false, 0, [], 1⟩,
    src := [], dst := [], dstJunk := [], draws := 2,
    params := ⟨none, .zeroFill⟩, bus := [], reply := .nothing }

end Sys2Proof.Machine
end

