-- ==== Sys2Proof/Machine/Flags.lean ====
section
/-! DEFINITION. STATUS, its codes and the error message (10_state.md R27, R28; 60_exceptions.md R241,
R246). The PFC has no condition codes (10_state.md R34). -/

namespace Sys2Proof.Machine

/-- The code of an error kind in STATUS.RESULT (60_exceptions.md R241). -/
def resultCode : ErrKind → BitVec 2
  | .unsupportedFormat _ => 1
  | .allocationFailure => 2
  | .invalidArgument => 3

/-- STATUS while a command runs (10_state.md R31). -/
def statusBusy : Status := ⟨true, false, 0⟩

/-- STATUS after a command that succeeded (46_dispatcher.md R220). -/
def statusOk : Status := ⟨false, true, 0⟩

/-- STATUS after a command that failed (60_exceptions.md R247). -/
def statusFailed (k : ErrKind) : Status := ⟨false, true, resultCode k⟩

/-- STATUS as the host reads it (10_state.md R27): BUSY, DONE, RESULT, and bits [31:4] zero. -/
def statusWord (st : Status) : Word :=
  0#28 ++ st.result ++ BitVec.ofBool st.done ++ BitVec.ofBool st.busy

/-- "unable to decode format ", 24 characters (60_exceptions.md R246). -/
def unsupportedText : List Byte :=
  [0x75, 0x6E, 0x61, 0x62, 0x6C, 0x65, 0x20, 0x74, 0x6F, 0x20, 0x64, 0x65, 0x63, 0x6F, 0x64, 0x65,
   0x20, 0x66, 0x6F, 0x72, 0x6D, 0x61, 0x74, 0x20]

/-- "scratch allocation failed", 25 characters (60_exceptions.md R246). -/
def allocationText : List Byte :=
  [0x73, 0x63, 0x72, 0x61, 0x74, 0x63, 0x68, 0x20, 0x61, 0x6C, 0x6C, 0x6F, 0x63, 0x61, 0x74, 0x69,
   0x6F, 0x6E, 0x20, 0x66, 0x61, 0x69, 0x6C, 0x65, 0x64]

/-- "invalid argument", 16 characters (60_exceptions.md R246). -/
def invalidText : List Byte :=
  [0x69, 0x6E, 0x76, 0x61, 0x6C, 0x69, 0x64, 0x20, 0x61, 0x72, 0x67, 0x75, 0x6D, 0x65, 0x6E, 0x74]

/-- The text of an error kind (60_exceptions.md R246); the four tag bytes are stored as they are, a NUL
among them too (log entry 18). -/
def messageText : ErrKind → List Byte
  | .unsupportedFormat code => unsupportedText ++ tagBytes code
  | .allocationFailure => allocationText
  | .invalidArgument => invalidText

/-- ERRMSG holding a text, 0x00 in every remaining byte (60_exceptions.md R246). -/
def messageBytes (text : List Byte) : Vector Byte 32 := Vector.ofFn fun i => text.getD i 0

/-- The word ERRMSG`j` (10_state.md R28): byte `M[4j]` in the least significant bits. -/
def errmsgWord (m : Vector Byte 32) (j : Nat) : Word :=
  wordOfBytes (m.toList.getD (4 * j) 0) (m.toList.getD (4 * j + 1) 0) (m.toList.getD (4 * j + 2) 0)
    (m.toList.getD (4 * j + 3) 0)

/-- The message: the bytes before the first 0x00 (10_state.md R28; `GETERR`, 30_encoding.md R91). -/
def errorText (m : Vector Byte 32) : List Byte := m.toList.takeWhile (· != 0)

end Sys2Proof.Machine
end

