-- ==== Sys2Proof/Machine/Ops.lean ====
section
/-! DEFINITION. The operations the meanings share: the byte spaces, the loops of the stages, the scratch
controller, the end of a command and the failure sequence. -/

namespace Sys2Proof.Machine

/-! ### One memory -/

/-- The byte listed at an offset. -/
def Memory.read : Memory → Nat → Option Byte
  | [], _ => none
  | (x, b) :: t, a => if a = x then some b else Memory.read t a

/-- Storing a byte (00_scope.md R9); the canonical form is kept. -/
def Memory.write : Memory → Nat → Byte → Memory
  | [], a, b => [(a, b)]
  | (x, y) :: t, a, b =>
    if a < x then (a, b) :: (x, y) :: t
    else if a = x then (a, b) :: t
    else (x, y) :: Memory.write t a b

/-- Storing consecutive bytes (`MemWrite`, 00_scope.md R9). -/
def Memory.writeList : Memory → Nat → List Byte → Memory
  | m, _, [] => m
  | m, a, b :: bs => Memory.writeList (Memory.write m a b) (a + 1) bs

/-- The bytes from offset `n` on; those below are no longer known. -/
def Memory.dropBelow (m : Memory) (n : Nat) : Memory := m.filter (fun c => decide (n ≤ c.1))

/-! ### The four spaces -/

/-- The free value of a DST byte that is not listed: that of the newest failure whose range reaches the
offset (60_exceptions.md R247), else the host's own byte (10_state.md R38). -/
def junkByte (junk : List (Nat × Nat)) (a : Nat) : Byte :=
  match junk.find? (fun e => decide (a < e.1)) with
  | some e => Config.freshByte e.2 a
  | none => Config.dstByte a

/-- `S[a]`: the byte a read of a space gives (00_scope.md R9). An offset that is not listed gives a free
value (log entries 4, 5, 6). Reading has no side effect. -/
def State.byteAt (s : State) : Space → Nat → Byte
  | .src, a => (s.src.read a).getD (Config.srcByte a)
  | .dst, a => (s.dst.read a).getD (junkByte s.dstJunk a)
  | .scry, a => (s.scry.mem.read a).getD (Config.freshByte s.scry.draw a)
  | .scrr, a => (s.scrr.mem.read a).getD (Config.freshByte s.scrr.draw a)

/-- The listed bytes of a space. -/
def State.memOf (s : State) : Space → Memory
  | .src => s.src
  | .dst => s.dst
  | .scry => s.scry.mem
  | .scrr => s.scrr.mem

/-- The state with another memory for one space. -/
def State.withMem (s : State) : Space → Memory → State
  | .src, m => { s with src := m }
  | .dst, m => { s with dst := m }
  | .scry, m => { s with scry := { s.scry with mem := m } }
  | .scrr, m => { s with scrr := { s.scrr with mem := m } }

/-- The state in a phase (10_state.md R33). -/
def State.enter (s : State) (p : Phase) : State := { s with phase := p }

/-! ### Stages

"Every stage reads one space and writes a different one" (20_memory.md R66), so a stage is a loop over
the working registers and one output memory, and its input is a fixed function of the offset. -/

/-- What a stage changes: the working registers and the memory it writes. -/
structure Pass where
  work : Work
  out  : Memory
deriving DecidableEq, Repr

/-- `for i in 0 .. n-1`, in increasing order (00_scope.md R9). -/
def forBelow {α : Type} (n : Nat) (body : Nat → α → α) (x : α) : α :=
  match n with
  | 0 => x
  | n + 1 => body n (forBelow n body x)

/-- The sequencer's loop position (10_state.md R33; log entry 10). -/
def Pass.seqAt (p : Pass) (row col : Nat) : Pass :=
  { p with work := { p.work with row := BitVec.ofNat 32 row, col := BitVec.ofNat 32 col } }

/-- The source offset of the pointer-walking form (10_state.md R30; log entry 10). -/
def Pass.sourceAt (p : Pass) (ps : Nat) : Pass :=
  { p with work := { p.work with ps := BitVec.ofNat 32 ps } }

/-- The destination offset of the pointer-walking form (10_state.md R30; log entry 10). -/
def Pass.destAt (p : Pass) (pd : Nat) : Pass :=
  { p with work := { p.work with pd := BitVec.ofNat 32 pd } }

/-- The luma, U-plane and V-plane offsets of the pointer-walking form (10_state.md R30; log entry 10). -/
def Pass.planesAt (p : Pass) (py pu pv : Nat) : Pass :=
  { p with work := { p.work with py := BitVec.ofNat 32 py, pu := BitVec.ofNat 32 pu, pv := BitVec.ofNat 32 pv } }

/-- `Y0`, `Y1`, `U`, `V` written (10_state.md R30). -/
def Pass.sample (p : Pass) (y0 y1 u v : Byte) : Pass :=
  { p with work := { p.work with y0 := y0, y1 := y1, u := u, v := v } }

/-- The register of R, G, B for byte `j` of a pixel in an order (20_memory.md R59), written with that byte. -/
def Pixel.setByte (px : Pixel) (o : Order) (j : Nat) (b : Byte) : Pixel :=
  match o, j with
  | .rgb, 0 => { px with r := b }
  | .rgb, 1 => { px with g := b }
  | .rgb, _ => { px with b := b }
  | .bgr, 0 => { px with b := b }
  | .bgr, 1 => { px with g := b }
  | .bgr, _ => { px with r := b }

/-- Byte `j` of the output pixel written to its register of R, G, B, "before it is stored" (10_state.md R30). -/
def Pass.holdByte (p : Pass) (o : Order) (j : Nat) (b : Byte) : Pass :=
  { p with work := { p.work with px := p.work.px.setByte o j b } }

/-- The three bytes of pixel `q`, in an order, written to R, G, B (10_state.md R30). -/
def Pass.holdPixel (p : Pass) (o : Order) (inp : Nat → Byte) (q : Nat) : Pass :=
  ((p.holdByte o 0 (inp (3 * q))).holdByte o 1 (inp (3 * q + 1))).holdByte o 2 (inp (3 * q + 2))

/-- `Out[a] <- b`. -/
def Pass.store (p : Pass) (a : Nat) (b : Byte) : Pass := { p with out := p.out.write a b }

/-- `R`, `G`, `B` written and stored at three consecutive offsets (10_state.md R30; 20_memory.md R59). -/
def Pass.emit (p : Pass) (a : Nat) (px : Pixel) : Pass :=
  { work := { p.work with px := px },
    out := ((p.out.write a px.r).write (a + 1) px.g).write (a + 2) px.b }

/-- Running a stage of the state on one output space. -/
def State.runStage (s : State) (out : Space) (stage : Pass → Pass) : State :=
  let p := stage ⟨s.work, s.memOf out⟩
  { s with work := p.work }.withMem out p.out

/-! ### The scratch controller (46_dispatcher.md section 3) -/

/-- One scratch buffer. -/
def State.buf (s : State) : Buf → Scratch
  | .scry => s.scry
  | .scrr => s.scrr

/-- The state with another value for one scratch buffer. -/
def State.withBuf (s : State) : Buf → Scratch → State
  | .scry, b => { s with scry := b }
  | .scrr, b => { s with scrr := b }

/-- The bytes a scratch buffer holds of the scratch memory. -/
def Scratch.held (b : Scratch) : Nat := if b.alloc then b.size else 0

/-- The scratch bytes in use (46_dispatcher.md R217). -/
def State.scratchUsed (s : State) : Nat := s.scry.held + s.scrr.held

/-- Whether a number of bytes fits SCRATCH_CAP (46_dispatcher.md R217); unbounded fits all. -/
def fitsCap : Option Nat → Nat → Bool
  | none, _ => true
  | some cap, n => decide (n ≤ cap)

/-- A granted request (46_dispatcher.md R217): `B.alloc <- 1`, `B.size <- n`, the bytes `B[0 .. n-1]`
unspecified, a new draw of free values (log entry 5). -/
def granted (b : Buf) (n : Nat) (s : State) : State :=
  { s.withBuf b ⟨true, n, [], s.draws⟩ with draws := s.draws + 1 }

/-- `alloc(B, n)` (46_dispatcher.md R217): granted if the bytes in use and the request fit, else refused. -/
def alloc (b : Buf) (n : Nat) (s : State) : Option State :=
  if fitsCap s.params.scratchCap (s.scratchUsed + n) then some (granted b n s) else none

/-- `free(B)` (46_dispatcher.md R218): "the bytes keep whatever they held". -/
def free (b : Buf) (s : State) : State := s.withBuf b { s.buf b with alloc := false }

/-- Freeing every scratch buffer (46_dispatcher.md R217, R223). -/
def freeAll (s : State) : State := free .scrr (free .scry s)

/-! ### The end of a command -/

/-- A successful end (46_dispatcher.md R210, R220, R223; 10_state.md R33): FINISH, then IDLE. -/
def succeed (s : State) : State :=
  { freeAll (s.enter .finish) with phase := .idle, status := statusOk }

/-- Every byte of `DST[0 .. len-1]` unspecified (60_exceptions.md R247; 93_implementation_defined.md U1):
the known bytes there are dropped and a new draw covers the range. -/
def spoilDst (len : Nat) (s : State) : State :=
  if len = 0 then s
  else
    { s with
      dst := s.dst.dropBelow len
      dstJunk := (len, s.draws) :: s.dstJunk.filter (fun e => decide (len < e.1))
      draws := s.draws + 1 }

/-- TAKING AN EXCEPTION: the failure sequence (60_exceptions.md R247) of the error kind `k` in a command
that declared `dstLen` bytes of DST. In the spec's order: the scratch is freed, ERRMSG is overwritten,
the rest of the pipeline does not run, the phase is IDLE, STATUS reports the kind. Nothing is saved and
there is no return from it (R248). -/
def raise (k : ErrKind) (dstLen : Nat) (s : State) : State :=
  { spoilDst dstLen { freeAll s with errmsg := messageBytes (messageText k) } with
    phase := .idle
    status := statusFailed k }

/-- How a pipeline leaves the state: complete, or with an error kind to raise. -/
inductive Attempt
  | done (s : State)
  | raised (k : ErrKind) (s : State)
deriving DecidableEq, Repr

/-- The end of a command that declared `dstLen` bytes of DST (46_dispatcher.md R210). -/
def conclude (dstLen : Nat) : Attempt → State
  | .done s => succeed s
  | .raised k s => raise k dstLen s

/-! ### The start of a command -/

/-- Latching the command registers and setting STATUS.BUSY (10_state.md R31). -/
def latchCommand (s : State) : State :=
  { s with
    latch := ⟨s.format, s.width, s.height, s.srcLen, s.dstLen, s.order⟩
    status := statusBusy
    phase := .check }

/-- The six words of the latched command: CTRL with START = 1 and the reserved bits 0 (30_encoding.md R80, R81). -/
def latchedWords (l : Latch) : CmdWords :=
  { w0 := l.code, w1 := l.w, w2 := l.h, w3 := l.srcLen, w4 := l.dstLen, w5 := ctrlWord true l.order }

/-! ### The register space (10_state.md section 2) -/

/-- What a 32-bit read of a register offset gives (10_state.md R21 to R29). -/
def readReg (off : Nat) (s : State) : Word :=
  if off = 0x00 then s.format
  else if off = 0x04 then s.width
  else if off = 0x08 then s.height
  else if off = 0x0C then s.srcLen
  else if off = 0x10 then s.dstLen
  else if off = 0x14 then ctrlWord false s.order
  else if off = 0x18 then statusWord s.status
  else if 0x20 ≤ off ∧ off < 0x40 then errmsgWord s.errmsg ((off - 0x20) / 4)
  else 0

/-- A 32-bit write of a register other than CTRL (10_state.md R21 to R29): STATUS, ERRMSG and the
reserved offsets ignore it. -/
def writeReg (off : Nat) (v : Word) (s : State) : State :=
  if off = 0x00 then { s with format := v }
  else if off = 0x04 then { s with width := v }
  else if off = 0x08 then { s with height := v }
  else if off = 0x0C then { s with srcLen := v }
  else if off = 0x10 then { s with dstLen := v }
  else s

/-! ### Reset -/

/-- The external reset (70_reset_and_hazards.md R270, R271). SRC and DST are the host's and stay, but for
a command that runs, whose DST range is unspecified afterwards. Scratch bytes are unspecified, so both
buffers take a new draw. The parameters, the counter of draws and the pending accesses are not the PFC's
state and stay (log entry 17). -/
def resetPfc (s : State) : State :=
  let t := if s.status.busy then spoilDst s.latch.dstLen.toNat s else s
  { State.reset with
    scry := ⟨false, 0, [], t.draws⟩
    scrr := ⟨false, 0, [], t.draws + 1⟩
    src := t.src
    dst := t.dst
    dstJunk := t.dstJunk
    draws := t.draws + 2
    params := t.params
    bus := t.bus
    reply := .nothing }

end Sys2Proof.Machine
end

