-- ==== Sys2Proof/Machine/Operands.lean ====
section
/-! DEFINITION. The operands of a command: the layout classes and their sizes, the checks before a
pipeline, and the variant data of each format (30_encoding.md R84, R85). -/

namespace Sys2Proof.Machine

/-- The number of pixels `N = W*H` (46_dispatcher.md R211). -/
def pixelCount (c : CmdFields) : Nat := c.w.toNat * c.h.toNat

/-- `out_size(W, H) = 3*W*H` (20_memory.md R52). -/
def outSize (c : CmdFields) : Nat := 3 * (c.w.toNat * c.h.toNat)

/-- `layout_size(class, W, H)` over the naturals (20_memory.md R52). -/
def layoutSize (cls : LayoutClass) (w h : Nat) : Nat :=
  match cls with
  | .packedRgb24 => 3 * (w * h)
  | .rgb565 => 2 * (w * h)
  | .packedYuv422 => 2 * (w * h)
  | .planarYuv420 => 3 * (w * h) / 2
  | .vendor => 3 * (w * h) / 2
  | .unsupported => 0

/-- The classes that need even W and H (46_dispatcher.md R213). -/
def needsEven : LayoutClass → Bool
  | .packedYuv422 => true
  | .planarYuv420 => true
  | .vendor => true
  | .packedRgb24 => false
  | .rgb565 => false
  | .unsupported => false

/-- `check_dimensions` (46_dispatcher.md R213): whether W and H are accepted. -/
def dimensionsOk (cls : LayoutClass) (c : CmdFields) : Bool :=
  decide (c.w.toNat ≠ 0) && decide (c.h.toNat ≠ 0)
    && !(needsEven cls && (decide (c.w.toNat % 2 = 1) || decide (c.h.toNat % 2 = 1)))

/-- `check_lengths` (46_dispatcher.md R214), over the naturals: whether the lengths are accepted. -/
def lengthsOk (cls : LayoutClass) (c : CmdFields) : Bool :=
  decide (layoutSize cls c.w.toNat c.h.toNat ≤ c.srcLen.toNat) && decide (outSize c ≤ c.dstLen.toNat)

/-- Whether a command passes both checks (46_dispatcher.md R215). -/
def accepted (cls : LayoutClass) (c : CmdFields) : Bool := dimensionsOk cls c && lengthsOk cls c

/-- The layout class of a command (30_encoding.md R84). -/
def classOf : Instr → LayoutClass
  | .convertRGB3 _ => .packedRgb24
  | .convertBGR3 _ => .packedRgb24
  | .convertRGBP _ => .rgb565
  | .convertYUYV _ => .packedYuv422
  | .convertYVYU _ => .packedYuv422
  | .convertUYVY _ => .packedYuv422
  | .convertYU12 _ => .planarYuv420
  | .convertYV12 _ => .planarYuv420
  | .convertS501 _ => .vendor
  | .convertS505 _ => .vendor
  | .convertS508 _ => .vendor
  | .convertUnsupported _ _ => .unsupported

/-- The byte positions of the samples in a packed 4:2:2 group (43_packed_yuv422.md R151). -/
structure GroupPos where
  y0 : Nat
  u  : Nat
  y1 : Nat
  v  : Nat
deriving DecidableEq, Repr

/-- YUYV (43_packed_yuv422.md R153). -/
def posYUYV : GroupPos := ⟨0, 1, 2, 3⟩

/-- YVYU (43_packed_yuv422.md R154). -/
def posYVYU : GroupPos := ⟨0, 3, 2, 1⟩

/-- UYVY (43_packed_yuv422.md R155). -/
def posUYVY : GroupPos := ⟨1, 0, 3, 2⟩

/-- The bases of the U and V planes (44_planar_yuv420.md R170, R171). -/
structure PlaneBases where
  ub : Nat
  vb : Nat
deriving DecidableEq, Repr

/-- YU12, and the planar intermediate in SCRY: U first (44_planar_yuv420.md R173; 45_vendor_two_stage.md R193). -/
def basesUV (w h : Nat) : PlaneBases := ⟨w * h, 5 * (w * h) / 4⟩

/-- YV12: V first (44_planar_yuv420.md R174). -/
def basesVU (w h : Nat) : PlaneBases := ⟨5 * (w * h) / 4, w * h⟩

/-- The offsets of the four lines in a vendor group (45_vendor_two_stage.md R191). -/
structure LineOffsets where
  y0 : Nat
  u  : Nat
  y1 : Nat
  v  : Nat
deriving DecidableEq, Repr

/-- Layout A: Y, U, Y, V (45_vendor_two_stage.md R191, R195). -/
def linesA (w : Nat) : LineOffsets := ⟨0, w, 3 * w / 2, 5 * w / 2⟩

/-- Layout B: Y, Y, U, V (45_vendor_two_stage.md R191, R196). -/
def linesB (w : Nat) : LineOffsets := ⟨0, 2 * w, w, 5 * w / 2⟩

/-- Layout C: Y, U, V, Y (45_vendor_two_stage.md R191, R197). -/
def linesC (w : Nat) : LineOffsets := ⟨0, w, 2 * w, 3 * w / 2⟩

end Sys2Proof.Machine
end

