-- ==== Sys2Proof/Machine/Matrix.lean ====
section
/-! DEFINITION. The arithmetic of the datapath: the clipper and the YCbCr-to-RGB matrix
(40_clip_matrix.md), the rebias (45_vendor_two_stage.md R190) and RGB565_UNPACK (42_rgb565.md R141). -/

namespace Sys2Proof.Machine

/-- `a << n` on a signed integer: exact (00_scope.md R8). -/
def shl (a : Int) (n : Nat) : Int := a * 2 ^ n

/-- `a >> n` on a signed integer: `floor(a / 2^n)` (00_scope.md R8). -/
def sar (a : Int) (n : Nat) : Int := a / 2 ^ n

/-- `clip(x)` (40_clip_matrix.md R110). -/
def clip (x : Int) : Byte :=
  if x < 0 then 0 else if 255 < x then 255 else BitVec.ofInt 8 x

/-- A chroma sample about its centre, `U - 128` (40_clip_matrix.md R111). -/
def centred (u : Byte) : Int := (u.toNat : Int) - 128

/-- `chroma_terms(U, V)` (40_clip_matrix.md R111): exact, then held in 16 bits, which lose nothing (R113). -/
def chromaTerms (u v : Byte) : Terms :=
  { u1 := BitVec.ofInt 16 (sar (shl (centred u) 7 + centred u) 6)
    rg := BitVec.ofInt 16 (sar (shl (centred u) 1 + centred u + shl (centred v) 2 + shl (centred v) 1) 3)
    v1 := BitVec.ofInt 16 (sar (shl (centred v) 1 + centred v) 1) }

/-- `pixel(Y, (u1, rg, v1))` (40_clip_matrix.md R112). -/
def pixel (y : Byte) (t : Terms) : Pixel :=
  { r := clip (y.toNat + t.v1.toInt)
    g := clip (y.toNat - t.rg.toInt)
    b := clip (y.toNat + t.u1.toInt) }

/-- `rebias(b) = b XOR 0x80` (45_vendor_two_stage.md R190). -/
def rebias (b : Byte) : Byte := b ^^^ 0x80#8

/-- The default RGB565_UNPACK (42_rgb565.md R141): each field at the top of its byte, zeros below. -/
def unpackZeroFill (t : BitVec 16) : Pixel :=
  { r := t.extractLsb' 11 5 ++ 0#3
    g := t.extractLsb' 5 6 ++ 0#2
    b := t.extractLsb' 0 5 ++ 0#3 }

/-- A 24-bit value as a pixel, R on top. -/
def pixelOfBits (x : BitVec 24) : Pixel :=
  { r := x.extractLsb' 16 8, g := x.extractLsb' 8 8, b := x.extractLsb' 0 8 }

/-- RGB565_UNPACK under the parameter (42_rgb565.md R141; log entry 8). -/
def unpack565 (p : Unpack565) (t : BitVec 16) : Pixel :=
  match p with
  | .zeroFill => unpackZeroFill t
  | .other n => pixelOfBits (Config.otherUnpack n t)

end Sys2Proof.Machine
end

