-- ==== Sys2Proof/Machine/Command.lean ====
section
/-! DEFINITION. What the commands share: the checks in their order, the two pipelines with scratch
buffers, and the SWAP stage that ends them (46_dispatcher.md R211, R215). -/

namespace Sys2Proof.Machine

/-- What SWAP does with R, G, B, which "every decode stage" writes (10_state.md R30). Run in the phase DECODE
(46_dispatcher.md R211) it is the decode stage, and the pixel, in the order of its input, passes through them;
run in the phase SWAP it is none, and they keep the pixel the decode stage left. -/
def swapHold (decodes : Option Order) (inp : Nat → Byte) (q : Nat) (p : Pass) : Pass :=
  match decodes with
  | some o => p.holdPixel o inp q
  | none => p

/-- Stage `SWAP(In -> DST, N)` on `n` pixels (41_direct_swap.md R132), `w` pixels a row for the sequencer.
`decodes` is the order of the input where SWAP is the decode stage, none where it follows one. -/
def swapLoop (decodes : Option Order) (w n : Nat) (inp : Nat → Byte) : Pass → Pass :=
  forBelow n fun q p =>
    (((((((swapHold decodes inp q p).seqAt (q / w) (q % w)).sourceAt (3 * q)).destAt (3 * q)).store (3 * q) (inp (3 * q + 2))).store
      (3 * q + 1) (inp (3 * q + 1))).store (3 * q + 2) (inp (3 * q)))

/-- `Execute(cmd)` for a supported code, to its end (46_dispatcher.md R210, R215): the checks, then the
pipeline, then the outcome. -/
def runCommand (cls : LayoutClass) (c : CmdFields) (pipeline : State → Attempt) (s : State) : State :=
  conclude c.dstLen.toNat
    (if accepted cls c then pipeline (s.enter .check) else .raised .invalidArgument (s.enter .check))

/-- The stages from a decode stage to DST (46_dispatcher.md R211, R212): straight into DST for RGB;
through SCRR and SWAP for BGR. `decode s inp` is the decode stage reading the state `s`. -/
def decodeAndSwap (c : CmdFields) (decode : State → Pass → Pass) (s : State) : Attempt :=
  match c.order with
  | .rgb => .done ((s.enter .decode).runStage .dst (decode s))
  | .bgr =>
    match alloc .scrr (outSize c) s with
    | none => .raised .allocationFailure (freeAll s)
    | some s =>
      let s := (s.enter .decode).runStage .scrr (decode s)
      let s := (s.enter .swap).runStage .dst (swapLoop none c.w.toNat (pixelCount c) (s.byteAt .scrr))
      .done (free .scrr s)

/-- The successful end of a pipeline's outer buffer: freed when the inner stages are complete. -/
def thenFree (b : Buf) : Attempt → Attempt
  | .done s => .done (free b s)
  | .raised k s => .raised k s

end Sys2Proof.Machine
end

