-- ==== Sys2Proof/Machine/DirectSwap.lean ====
section
/-! DEFINITION. CONVERT RGB3 and CONVERT BGR3 (41_direct_swap.md). -/

namespace Sys2Proof.Machine

/-- Stage `COPY(In -> DST, N)` on `n` pixels (41_direct_swap.md R131), `w` pixels a row for the sequencer:
each byte of a pixel in the order `o` passes through its register of R, G, B (10_state.md R30). -/
def copyLoop (o : Order) (w n : Nat) (inp : Nat → Byte) : Pass → Pass :=
  forBelow (3 * n) fun i p =>
    ((((p.holdByte o (i % 3) (inp i)).seqAt (i / 3 / w) (i / 3 % w)).sourceAt i).destAt i).store i (inp i)

/-- The pipeline of class PACKED_RGB24 (46_dispatcher.md R211): COPY if the native order is the one asked
for, else SWAP, straight into DST as the decode stage (R212); no scratch buffer on either path (90_conflicts.md C2). -/
def directPipeline (native : Order) (c : CmdFields) (s : State) : Attempt :=
  if native = c.order then
    .done ((s.enter .decode).runStage .dst (copyLoop native c.w.toNat (pixelCount c) (s.byteAt .src)))
  else
    .done ((s.enter .decode).runStage .dst (swapLoop (some native) c.w.toNat (pixelCount c) (s.byteAt .src)))

/-- CONVERT RGB3 (41_direct_swap.md R133). -/
def execConvertRGB3 (c : CmdFields) (s : State) : Host.Outcome State Fault Refusal :=
  .next (runCommand .packedRgb24 c (directPipeline .rgb c) s)

/-- CONVERT BGR3 (41_direct_swap.md R134). -/
def execConvertBGR3 (c : CmdFields) (s : State) : Host.Outcome State Fault Refusal :=
  .next (runCommand .packedRgb24 c (directPipeline .bgr c) s)

end Sys2Proof.Machine
end

