-- ==== Sys2Proof/Machine/PackedYuv.lean ====
section
/-! DEFINITION. CONVERT YUYV, YVYU and UYVY (43_packed_yuv422.md). -/

namespace Sys2Proof.Machine

/-- The samples of a pair turned into two pixels that share its chroma terms (40_clip_matrix.md R116):
the terms of `U`, `V`, then `Y0` at offset `a` and `Y1` at `a + 3`. -/
def emitPair (a : Nat) (p : Pass) : Pass :=
  let p : Pass := { p with work := { p.work with terms := chromaTerms p.work.u p.work.v } }
  let p := p.emit a (pixel p.work.y0 p.work.terms)
  p.emit (a + 3) (pixel p.work.y1 p.work.terms)

/-- One group of stage YUV422 (43_packed_yuv422.md R152), at row `r` and pair `k`. -/
def yuv422Group (pos : GroupPos) (inp : Nat → Byte) (w r k : Nat) (p : Pass) : Pass :=
  let g := r * (w / 2) + k
  let p := ((p.seqAt r k).sourceAt (4 * g)).destAt (6 * g)
  emitPair (6 * g)
    (p.sample (inp (4 * g + pos.y0)) (inp (4 * g + pos.y1)) (inp (4 * g + pos.u)) (inp (4 * g + pos.v)))

/-- Stage `YUV422(pos; SRC -> Out, W, H)` (43_packed_yuv422.md R152). -/
def yuv422Loop (pos : GroupPos) (w h : Nat) (inp : Nat → Byte) : Pass → Pass :=
  forBelow h fun r => forBelow (w / 2) fun k => yuv422Group pos inp w r k

/-- The pipeline of class PACKED_YUV422 (43_packed_yuv422.md R153). -/
def packedPipeline (pos : GroupPos) (c : CmdFields) : State → Attempt :=
  decodeAndSwap c fun s => yuv422Loop pos c.w.toNat c.h.toNat (s.byteAt .src)

/-- CONVERT YUYV (43_packed_yuv422.md R153). -/
def execConvertYUYV (c : CmdFields) (s : State) : Host.Outcome State Fault Refusal :=
  .next (runCommand .packedYuv422 c (packedPipeline posYUYV c) s)

/-- CONVERT YVYU (43_packed_yuv422.md R154). -/
def execConvertYVYU (c : CmdFields) (s : State) : Host.Outcome State Fault Refusal :=
  .next (runCommand .packedYuv422 c (packedPipeline posYVYU c) s)

/-- CONVERT UYVY (43_packed_yuv422.md R155). -/
def execConvertUYVY (c : CmdFields) (s : State) : Host.Outcome State Fault Refusal :=
  .next (runCommand .packedYuv422 c (packedPipeline posUYVY c) s)

end Sys2Proof.Machine
end

