-- ==== Sys2Proof/Machine/PlanarYuv.lean ====
section
/-! DEFINITION. The PLANAR stage, CONVERT YU12 and CONVERT YV12 (44_planar_yuv420.md). -/

namespace Sys2Proof.Machine

/-- One pixel pair of stage PLANAR (44_planar_yuv420.md R172), at row `r` and pair `k`: one chroma row
serves two luma rows. -/
def planarPair (pl : PlaneBases) (inp : Nat → Byte) (w r k : Nat) (p : Pass) : Pass :=
  let ci := r / 2 * (w / 2) + k
  let q := r * w + 2 * k
  let p := ((p.seqAt r k).planesAt q (pl.ub + ci) (pl.vb + ci)).destAt (3 * q)
  emitPair (3 * q) (p.sample (inp q) (inp (q + 1)) (inp (pl.ub + ci)) (inp (pl.vb + ci)))

/-- Stage `PLANAR(UB, VB; In -> Out, W, H)` (44_planar_yuv420.md R172). -/
def planarLoop (pl : PlaneBases) (w h : Nat) (inp : Nat → Byte) : Pass → Pass :=
  forBelow h fun r => forBelow (w / 2) fun k => planarPair pl inp w r k

/-- The pipeline of class PLANAR_YUV420 (44_planar_yuv420.md R173). -/
def planarPipeline (pl : PlaneBases) (c : CmdFields) : State → Attempt :=
  decodeAndSwap c fun s => planarLoop pl c.w.toNat c.h.toNat (s.byteAt .src)

/-- CONVERT YU12 (44_planar_yuv420.md R173). -/
def execConvertYU12 (c : CmdFields) (s : State) : Host.Outcome State Fault Refusal :=
  .next (runCommand .planarYuv420 c (planarPipeline (basesUV c.w.toNat c.h.toNat) c) s)

/-- CONVERT YV12 (44_planar_yuv420.md R174). -/
def execConvertYV12 (c : CmdFields) (s : State) : Host.Outcome State Fault Refusal :=
  .next (runCommand .planarYuv420 c (planarPipeline (basesVU c.w.toNat c.h.toNat) c) s)

end Sys2Proof.Machine
end

