-- ==== Sys2Proof/Machine/Rgb565.lean ====
section
/-! DEFINITION. CONVERT RGBP (42_rgb565.md). -/

namespace Sys2Proof.Machine

/-- The RGB565 word of pixel `q`: the byte at the lower offset is bits [7:0] (42_rgb565.md R141). -/
def rgb565Word (inp : Nat → Byte) (q : Nat) : BitVec 16 := inp (2 * q + 1) ++ inp (2 * q)

/-- One pixel of stage RGB565 (42_rgb565.md R141), at row `r` and column `k`. -/
def rgb565Pixel (unpack : Unpack565) (inp : Nat → Byte) (w r k : Nat) (p : Pass) : Pass :=
  let q := r * w + k
  let p := ((p.seqAt r k).sourceAt (2 * q)).destAt (3 * q)
  let p : Pass := { p with work := { p.work with tmp16 := rgb565Word inp q } }
  p.emit (3 * q) (unpack565 unpack p.work.tmp16)

/-- Stage `RGB565(SRC -> Out, W, H)`: exactly H rows (42_rgb565.md R141). -/
def rgb565Loop (unpack : Unpack565) (w h : Nat) (inp : Nat → Byte) : Pass → Pass :=
  forBelow h fun r => forBelow w fun k => rgb565Pixel unpack inp w r k

/-- CONVERT RGBP (42_rgb565.md R142). -/
def execConvertRGBP (c : CmdFields) (s : State) : Host.Outcome State Fault Refusal :=
  .next (runCommand .rgb565 c
    (decodeAndSwap c fun s => rgb565Loop s.params.unpack c.w.toNat c.h.toNat (s.byteAt .src)) s)

end Sys2Proof.Machine
end

