-- ==== Sys2Proof/Machine/Unsupported.lean ====
section
/-! DEFINITION. CONVERT with an unsupported code (46_dispatcher.md R221). -/

namespace Sys2Proof.Machine

/-- CONVERT of any code outside the registry (46_dispatcher.md R221): no operand is examined. DST_LEN
only bounds the bytes that the failure leaves unspecified (60_exceptions.md R247). -/
def execConvertUnsupported (code : Word) (c : CmdFields) (s : State) : Host.Outcome State Fault Refusal :=
  .next (conclude c.dstLen.toNat (.raised (.unsupportedFormat code) (s.enter .check)))

end Sys2Proof.Machine
end

