-- ==== Sys2Proof/Machine/Vendor.lean ====
section
/-! DEFINITION. The UNPACK stage, CONVERT S501, S505 and S508 (45_vendor_two_stage.md). -/

namespace Sys2Proof.Machine

/-- The two luma samples of column `k` in group `g` (45_vendor_two_stage.md R193). -/
def unpackLuma (ln : LineOffsets) (inp : Nat → Byte) (w g k : Nat) (p : Pass) : Pass :=
  let gb := 3 * w * g
  ((p.seqAt g k).store (2 * g * w + k) (rebias (inp (gb + ln.y0 + k)))).store
    ((2 * g + 1) * w + k) (rebias (inp (gb + ln.y1 + k)))

/-- The two chroma samples of column `k` in group `g` (45_vendor_two_stage.md R193). -/
def unpackChroma (ln : LineOffsets) (inp : Nat → Byte) (w h g k : Nat) (p : Pass) : Pass :=
  let gb := 3 * w * g
  ((p.seqAt g k).store (w * h + g * (w / 2) + k) (rebias (inp (gb + ln.u + k)))).store
    (5 * (w * h) / 4 + g * (w / 2) + k) (rebias (inp (gb + ln.v + k)))

/-- Stage `UNPACK(layout; SRC -> SCRY, W, H)` (45_vendor_two_stage.md R193). -/
def unpackLoop (ln : LineOffsets) (w h : Nat) (inp : Nat → Byte) : Pass → Pass :=
  forBelow (h / 2) fun g p =>
    forBelow (w / 2) (unpackChroma ln inp w h g) (forBelow w (unpackLuma ln inp w g) p)

/-- The size of the planar intermediate, `3*W*H/2` (45_vendor_two_stage.md R193, R194). -/
def planarSize (c : CmdFields) : Nat := 3 * (c.w.toNat * c.h.toNat) / 2

/-- The two-stage pipeline (45_vendor_two_stage.md R194): UNPACK to SCRY, then PLANAR from SCRY. -/
def vendorPipeline (ln : LineOffsets) (c : CmdFields) (s : State) : Attempt :=
  match alloc .scry (planarSize c) s with
  | none => .raised .allocationFailure (freeAll s)
  | some s =>
    thenFree .scry
      (decodeAndSwap c
        (fun s => planarLoop (basesUV c.w.toNat c.h.toNat) c.w.toNat c.h.toNat (s.byteAt .scry))
        ((s.enter .unpack).runStage .scry (unpackLoop ln c.w.toNat c.h.toNat (s.byteAt .src))))

/-- CONVERT S501, layout A (45_vendor_two_stage.md R192, R195). -/
def execConvertS501 (c : CmdFields) (s : State) : Host.Outcome State Fault Refusal :=
  .next (runCommand .vendor c (vendorPipeline (linesA c.w.toNat) c) s)

/-- CONVERT S505, layout B (45_vendor_two_stage.md R192, R196). -/
def execConvertS505 (c : CmdFields) (s : State) : Host.Outcome State Fault Refusal :=
  .next (runCommand .vendor c (vendorPipeline (linesB c.w.toNat) c) s)

/-- CONVERT S508, layout C (45_vendor_two_stage.md R192, R197). -/
def execConvertS508 (c : CmdFields) (s : State) : Host.Outcome State Fault Refusal :=
  .next (runCommand .vendor c (vendorPipeline (linesC c.w.toNat) c) s)

end Sys2Proof.Machine
end

