-- ==== Sys2Proof/Machine/Dispatch.lean ====
section
/-! DEFINITION. The dispatcher: one arm for each row of the registry (46_dispatcher.md R215). -/

namespace Sys2Proof.Machine

def exec (i : Instr) (s : State) : Host.Outcome State Fault Refusal :=
  match i with
  | .convertRGB3 c => Sys2Proof.Machine.execConvertRGB3 c s
  | .convertBGR3 c => Sys2Proof.Machine.execConvertBGR3 c s
  | .convertRGBP c => Sys2Proof.Machine.execConvertRGBP c s
  | .convertYUYV c => Sys2Proof.Machine.execConvertYUYV c s
  | .convertYVYU c => Sys2Proof.Machine.execConvertYVYU c s
  | .convertUYVY c => Sys2Proof.Machine.execConvertUYVY c s
  | .convertYU12 c => Sys2Proof.Machine.execConvertYU12 c s
  | .convertYV12 c => Sys2Proof.Machine.execConvertYV12 c s
  | .convertS501 c => Sys2Proof.Machine.execConvertS501 c s
  | .convertS505 c => Sys2Proof.Machine.execConvertS505 c s
  | .convertS508 c => Sys2Proof.Machine.execConvertS508 c s
  | .convertUnsupported code c => Sys2Proof.Machine.execConvertUnsupported code c s

end Sys2Proof.Machine
end

