-- ==== Sys2Proof/Machine/HostPort.lean ====
section
/-! DEFINITION. The host's accesses to the PFC (30_encoding.md R91; 10_state.md R26, R29), and the pseudo-
instructions made of them. -/

namespace Sys2Proof.Machine

/-- The command that the latches hold (46_dispatcher.md R215: the registry looks `L_CODE` up). -/
def latchedInstr (l : Latch) : Instr := selectRow l.code (fieldsOfWords (latchedWords l))

/-- The start of a command: latch, then run (10_state.md R31; 46_dispatcher.md R210). -/
def startCommand (s : State) : Host.Outcome State Fault Refusal :=
  exec (latchedInstr (latchCommand s).latch) (latchCommand s)

/-- A write of CTRL while no command runs (10_state.md R26): ORDER is stored, and START = 1 then starts
a command. -/
def writeCtrl (v : Word) (s : State) : Host.Outcome State Fault Refusal :=
  let s : State := { s with order := orderOfBit (v.getLsbD 0) }
  if startBit v then startCommand s else .next s

/-- `WR` (10_state.md R29): while BUSY every register write is ignored. -/
def hostWrite (off : Nat) (v : Word) (s : State) : Host.Outcome State Fault Refusal :=
  if off % 4 ≠ 0 then .refused .unalignedRegisterAccess
  else if s.status.busy then .next s
  else if off = 0x14 then writeCtrl v s
  else .next (writeReg off v s)

/-- `RD` (10_state.md R29): the current value, with no side effect. -/
def hostRead (off : Nat) (s : State) : Host.Outcome State Fault Refusal :=
  if off % 4 ≠ 0 then .refused .unalignedRegisterAccess
  else .next { s with reply := .word (readReg off s) }

/-- `LOADSRC`: the bytes at SRC offsets 0, 1, … (30_encoding.md R91; log entry 13). -/
def hostLoadSrc (bytes : List Byte) (s : State) : Host.Outcome State Fault Refusal :=
  if s.status.busy then .refused .bufferTouchedDuringCommand
  else .next { s with src := s.src.writeList 0 bytes }

/-- `READDST`: the first `n` bytes of DST (30_encoding.md R91; log entry 14). -/
def hostReadDst (n : Nat) (s : State) : Host.Outcome State Fault Refusal :=
  if s.status.busy then .refused .bufferTouchedDuringCommand
  else if s.dstLen.toNat < n then .fault .dstReadOutOfRange
  else .next { s with reply := .bytes ((List.range n).map (s.byteAt .dst)) }

/-- One access of the host. -/
def hostAccess (op : HostOp) (s : State) : Host.Outcome State Fault Refusal :=
  match op with
  | .wr off v => hostWrite off v s
  | .rd off => hostRead off s
  | .loadSrc bytes => hostLoadSrc bytes s
  | .readDst n => hostReadDst n s
  | .reset => .next (resetPfc s)

/-- The step: the host's first pending access; with none the PFC stays idle (60_exceptions.md R257). -/
def stepHost (s : State) : Host.Outcome State Fault Refusal :=
  match s.bus with
  | [] => .next s
  | op :: rest => hostAccess op { s with bus := rest }

/-- The register writes of the pseudo-instruction `CONVERT` (30_encoding.md R91); the reads of STATUS after them
are `RD` accesses like any other. -/
def convertOps (ws : CmdWords) : List HostOp :=
  [.wr 0x00 ws.w0, .wr 0x04 ws.w1, .wr 0x08 ws.w2, .wr 0x0C ws.w3, .wr 0x10 ws.w4, .wr 0x14 ws.w5]

/-- The pseudo-instruction `GETERR` (30_encoding.md R91): the reads of ERRMSG0..7. -/
def getErrOps : List HostOp :=
  [.rd 0x20, .rd 0x24, .rd 0x28, .rd 0x2C, .rd 0x30, .rd 0x34, .rd 0x38, .rd 0x3C]

/-- The pseudo-instruction `RESULT` (30_encoding.md R91): bits [3:2] of a STATUS value. -/
def resultOfStatus (v : Word) : BitVec 2 := v.extractLsb' 2 2

/-- The six words of a command placed so that the next step starts it: five registers hold w0..w4, BUSY
is 0, and the host's next access is the CTRL write of w5 (log entries 1 and 3). -/
def placeCommand (ws : CmdWords) (s : State) : State :=
  { s with
    format := ws.w0
    width := ws.w1
    height := ws.w2
    srcLen := ws.w3
    dstLen := ws.w4
    status := { s.status with busy := false }
    bus := .wr 0x14 ws.w5 :: s.bus }

end Sys2Proof.Machine
end

