-- ==== Sys2Proof/Safety.lean ====
section
/-! DEFINITION. The terms the statements use: idle and invariant states, images, and what a command that
succeeded or failed leaves. Nothing here gives a meaning; `step` does not use it. -/

namespace Sys2Proof.Machine

/-! ### States -/

/-- No scratch buffer is allocated (10_state.md R32). -/
def State.ScratchFree (s : State) : Prop := s.scry.alloc = false ∧ s.scrr.alloc = false

/-- The idle invariant (10_state.md R39): BUSY = 0, the phase is IDLE, no scratch is allocated. -/
structure State.Idle (s : State) : Prop where
  notBusy     : s.status.busy = false
  phaseIdle   : s.phase = .idle
  scratchFree : s.ScratchFree

/-- The part of the invariant that holds inside a command too. -/
structure State.Sound (s : State) : Prop where
  /-- Every memory has its canonical form. -/
  srcWf : s.src.wf
  dstWf : s.dst.wf
  scryWf : s.scry.mem.wf
  scrrWf : s.scrr.mem.wf
  /-- The unspecified DST ranges grow with their age, so each is the newest somewhere. -/
  junkRising : s.dstJunk.Pairwise (fun p q => p.1 < q.1)
  /-- Every draw of free values was made before the next one, so the next one is new. -/
  junkDrawn : ∀ e ∈ s.dstJunk, e.2 < s.draws
  scryDrawn : s.scry.draw < s.draws
  scrrDrawn : s.scrr.draw < s.draws
  /-- ERRMSG is terminated: no message is longer than 28 bytes (60_exceptions.md R246). -/
  messageEnds : ∀ i : Fin 32, 28 ≤ i.val → s.errmsg[i] = 0

/-- The invariant of the machine between steps. -/
structure State.Inv (s : State) : Prop extends State.Sound s where
  /-- 10_state.md R39. -/
  idle : s.Idle
  /-- RESULT is 0 unless a command has ended (10_state.md R27). -/
  resultNeedsDone : s.status.done = false → s.status.result = 0

/-! ### Images -/

/-- The pixel `q` of a space in an order (20_memory.md R59): with RGB the bytes at `3q`, `3q+1`, `3q+2`
are R, G, B; with BGR they are B, G, R. -/
def State.pixelAt (s : State) (sp : Space) (o : Order) (q : Nat) : Pixel :=
  match o with
  | .rgb => ⟨s.byteAt sp (3 * q), s.byteAt sp (3 * q + 1), s.byteAt sp (3 * q + 2)⟩
  | .bgr => ⟨s.byteAt sp (3 * q + 2), s.byteAt sp (3 * q + 1), s.byteAt sp (3 * q)⟩

/-- The pixel `q` of a finished command is `px` (46_dispatcher.md R211, R212): in DST, in the order asked for;
and, where the pixels went to DST through SCRR, in SCRR in the order RGB. -/
def State.Shows (t : State) (c : CmdFields) (q : Nat) (px : Pixel) : Prop :=
  t.pixelAt .dst c.order q = px ∧ (c.order = .bgr → t.pixelAt .scrr .rgb q = px)

/-- What a command that needs SCRR for BGR output leaves of SCRR: nothing for RGB, its size for BGR. -/
structure ScratchUse (c : CmdFields) (s t : State) : Prop where
  unused : c.order = .rgb → t.scrr = s.scrr
  sized  : c.order = .bgr → t.scrr.size = 3 * (c.w.toNat * c.h.toNat)

/-! ### Commands -/

/-- The conditions of 46_dispatcher.md R213 and R214 together. -/
structure Valid (cls : LayoutClass) (c : CmdFields) : Prop where
  wPos : 0 < c.w.toNat
  hPos : 0 < c.h.toNat
  even : cls = .packedYuv422 ∨ cls = .planarYuv420 ∨ cls = .vendor →
    c.w.toNat % 2 = 0 ∧ c.h.toNat % 2 = 0
  srcFits : layoutSize cls c.w.toNat c.h.toNat ≤ c.srcLen.toNat
  dstFits : 3 * (c.w.toNat * c.h.toNat) ≤ c.dstLen.toNat

/-- A number of scratch bytes is at most SCRATCH_CAP (46_dispatcher.md R217). -/
def State.CapHolds (s : State) (n : Nat) : Prop := ∀ cap, s.params.scratchCap = some cap → n ≤ cap

/-- What no command changes: SRC (20_memory.md R61), the command registers and latches (10_state.md R20,
R31), the parameters (10_state.md R37), and the host's side. -/
structure Kept (s t : State) : Prop where
  src    : t.src = s.src
  format : t.format = s.format
  width  : t.width = s.width
  height : t.height = s.height
  srcLen : t.srcLen = s.srcLen
  dstLen : t.dstLen = s.dstLen
  order  : t.order = s.order
  latch  : t.latch = s.latch
  params : t.params = s.params
  bus    : t.bus = s.bus
  reply  : t.reply = s.reply

/-- What a command that succeeded leaves besides the image (46_dispatcher.md R220): STATUS, an idle
machine, ERRMSG unchanged, no DST byte beyond the image changed. -/
structure Succeeded (c : CmdFields) (s t : State) : Prop where
  kept    : Kept s t
  idle    : t.Idle
  status  : t.status = ⟨false, true, 0⟩
  errmsg  : t.errmsg = s.errmsg
  beyond  : ∀ a, 3 * (c.w.toNat * c.h.toNat) ≤ a → t.byteAt .dst a = s.byteAt .dst a

/-- What a command that failed leaves (60_exceptions.md R247): the kind in STATUS, its message with 0x00
after it in ERRMSG, an idle machine, no byte outside `DST[0 .. DST_LEN-1]` changed. Of the bytes inside
it says nothing. -/
structure Failed (k : ErrKind) (c : CmdFields) (s t : State) : Prop where
  kept    : Kept s t
  idle    : t.Idle
  status  : t.status = ⟨false, true, resultCode k⟩
  errmsg  : ∀ i : Fin 32, t.errmsg[i] = (messageText k).getD i.val 0
  beyond  : ∀ a, c.dstLen.toNat ≤ a → t.byteAt .dst a = s.byteAt .dst a

/-- All that a supported command can do, from any state with no scratch allocated: InvalidArgument
unless the arguments are valid, else AllocationFailure unless `need c` scratch bytes fit, else success with
`result c s t` between the state `s` before and the state `t` after (46_dispatcher.md R215). A failure
changes no working register, but for the loop position where UNPACK has run. -/
def Outcomes (cls : LayoutClass) (make : CmdFields → Instr) (need : CmdFields → Nat)
    (result : CmdFields → State → State → Prop) : Prop :=
  ∀ (c : CmdFields) (s : State), s.ScratchFree →
    (¬ Valid cls c →
      ∃ t, exec (make c) s = .next t ∧ Failed .invalidArgument c s t ∧
        t.work = s.work ∧ t.scry = s.scry ∧ t.scrr = s.scrr) ∧
    (Valid cls c → ¬ s.CapHolds (need c) →
      ∃ t, exec (make c) s = .next t ∧ Failed .allocationFailure c s t ∧
        t.work = { s.work with row := t.work.row, col := t.work.col } ∧ t.scrr = s.scrr ∧
        (cls ≠ .vendor → t.work = s.work ∧ t.scry = s.scry)) ∧
    (Valid cls c → s.CapHolds (need c) →
      ∃ t, exec (make c) s = .next t ∧ Succeeded c s t ∧ result c s t)

/-- All that a command which never asks for scratch can do, from any state with no scratch allocated. -/
def OutcomesWithoutScratch (cls : LayoutClass) (make : CmdFields → Instr)
    (result : CmdFields → State → State → Prop) : Prop :=
  ∀ (c : CmdFields) (s : State), s.ScratchFree →
    (¬ Valid cls c →
      ∃ t, exec (make c) s = .next t ∧ Failed .invalidArgument c s t ∧
        t.work = s.work ∧ t.scry = s.scry ∧ t.scrr = s.scrr) ∧
    (Valid cls c → ∃ t, exec (make c) s = .next t ∧ Succeeded c s t ∧ result c s t)

/-- The scratch a single-stage command needs: none for RGB, SCRR for BGR (46_dispatcher.md R211). -/
def singleStageNeed (c : CmdFields) : Nat :=
  match c.order with
  | .rgb => 0
  | .bgr => 3 * (c.w.toNat * c.h.toNat)

/-- The scratch a vendor command needs: SCRY for RGB, SCRY and SCRR for BGR (45_vendor_two_stage.md R194). -/
def vendorNeed (c : CmdFields) : Nat :=
  match c.order with
  | .rgb => 3 * (c.w.toNat * c.h.toNat) / 2
  | .bgr => 9 * (c.w.toNat * c.h.toNat) / 2

/-- The scratch a command needs, by its class (46_dispatcher.md R217). -/
def scratchNeed (cls : LayoutClass) (c : CmdFields) : Nat :=
  match cls with
  | .packedRgb24 => 0
  | .rgb565 => singleStageNeed c
  | .packedYuv422 => singleStageNeed c
  | .planarYuv420 => singleStageNeed c
  | .vendor => vendorNeed c
  | .unsupported => 0

/-- The image a PACKED_RGB24 command leaves (41_direct_swap.md R131 to R134), and no scratch
buffer changed. -/
structure DirectResult (native : Order) (c : CmdFields) (s t : State) : Prop where
  copied   : c.order = native → ∀ a, a < 3 * (c.w.toNat * c.h.toNat) → t.byteAt .dst a = s.byteAt .src a
  swapped  : c.order ≠ native → ∀ q, q < c.w.toNat * c.h.toNat →
    t.byteAt .dst (3 * q) = s.byteAt .src (3 * q + 2) ∧
    t.byteAt .dst (3 * q + 1) = s.byteAt .src (3 * q + 1) ∧
    t.byteAt .dst (3 * q + 2) = s.byteAt .src (3 * q)
  scry     : t.scry = s.scry
  scrr     : t.scrr = s.scrr

/-- The image an RGBP command leaves (42_rgb565.md R141, R142), and its frame. -/
structure Rgb565Result (c : CmdFields) (s t : State) : Prop where
  pixels  : ∀ q, q < c.w.toNat * c.h.toNat →
    t.Shows c q (unpack565 s.params.unpack (s.byteAt .src (2 * q + 1) ++ s.byteAt .src (2 * q)))
  scry    : t.scry = s.scry
  scrr    : ScratchUse c s t

/-- The image a PACKED_YUV422 command leaves (43_packed_yuv422.md R152), and its frame. -/
structure PackedResult (pos : GroupPos) (c : CmdFields) (s t : State) : Prop where
  pixels : ∀ g, g < c.w.toNat * c.h.toNat / 2 →
    t.Shows c (2 * g)
      (pixel (s.byteAt .src (4 * g + pos.y0))
        (chromaTerms (s.byteAt .src (4 * g + pos.u)) (s.byteAt .src (4 * g + pos.v)))) ∧
    t.Shows c (2 * g + 1)
      (pixel (s.byteAt .src (4 * g + pos.y1))
        (chromaTerms (s.byteAt .src (4 * g + pos.u)) (s.byteAt .src (4 * g + pos.v))))
  scry   : t.scry = s.scry
  scrr   : ScratchUse c s t

/-- The image a PLANAR_YUV420 command leaves (44_planar_yuv420.md R172), and its frame. -/
structure PlanarResult (ub vb : Nat → Nat) (c : CmdFields) (s t : State) : Prop where
  pixels : ∀ r k, r < c.h.toNat → k < c.w.toNat →
    t.Shows c (r * c.w.toNat + k)
      (pixel (s.byteAt .src (r * c.w.toNat + k))
        (chromaTerms
          (s.byteAt .src (ub (c.w.toNat * c.h.toNat) + (r / 2 * (c.w.toNat / 2) + k / 2)))
          (s.byteAt .src (vb (c.w.toNat * c.h.toNat) + (r / 2 * (c.w.toNat / 2) + k / 2)))))
  scry   : t.scry = s.scry
  scrr   : ScratchUse c s t

/-- The planar intermediate `mid` of a vendor source `inp` (45_vendor_two_stage.md R193): the luma rows in
order, then the U plane, then the V plane, every byte rebiased. -/
def PlanarOf (ln : LineOffsets) (w h : Nat) (inp mid : Nat → Byte) : Prop :=
  (∀ g k, g < h / 2 → k < w →
    mid (2 * g * w + k) = rebias (inp (3 * w * g + ln.y0 + k)) ∧
    mid ((2 * g + 1) * w + k) = rebias (inp (3 * w * g + ln.y1 + k))) ∧
  (∀ g k, g < h / 2 → k < w / 2 →
    mid (w * h + g * (w / 2) + k) = rebias (inp (3 * w * g + ln.u + k)) ∧
    mid (5 * (w * h) / 4 + g * (w / 2) + k) = rebias (inp (3 * w * g + ln.v + k)))

/-- The image a VENDOR command leaves, in one formula from the source (45_vendor_two_stage.md R191, R193,
R194; 44_planar_yuv420.md R172), the intermediate it leaves in SCRY, and its frame. -/
structure VendorResult (lines : Nat → LineOffsets) (c : CmdFields) (s t : State) : Prop where
  pixels : ∀ r k, r < c.h.toNat → k < c.w.toNat →
    t.Shows c (r * c.w.toNat + k)
      (pixel
        (rebias (s.byteAt .src (3 * c.w.toNat * (r / 2)
          + (if r % 2 = 0 then (lines c.w.toNat).y0 else (lines c.w.toNat).y1) + k)))
        (chromaTerms
          (rebias (s.byteAt .src (3 * c.w.toNat * (r / 2) + (lines c.w.toNat).u + k / 2)))
          (rebias (s.byteAt .src (3 * c.w.toNat * (r / 2) + (lines c.w.toNat).v + k / 2)))))
  scry   : t.scry.size = 3 * (c.w.toNat * c.h.toNat) / 2 ∧
    PlanarOf (lines c.w.toNat) c.w.toNat c.h.toNat (s.byteAt .src) (t.byteAt .scry)
  scrr   : ScratchUse c s t

/-- The working registers a successful command of a class leaves as they were (10_state.md R30; that the stages
keep copies of their positions, and which of them write R, G, B: log entries 10 and 11). -/
def WorkFrame (cls : LayoutClass) (c : CmdFields) (s t : State) : Prop :=
  match cls with
  | .packedRgb24 => t.work = { s.work with
      px := t.work.px, row := t.work.row, col := t.work.col, ps := t.work.ps, pd := t.work.pd }
  | .rgb565 => t.work = { s.work with
      px := t.work.px, tmp16 := t.work.tmp16, row := t.work.row, col := t.work.col, ps := t.work.ps, pd := t.work.pd }
  | .packedYuv422 => t.work.tmp16 = s.work.tmp16 ∧ t.work.py = s.work.py ∧ t.work.pu = s.work.pu ∧ t.work.pv = s.work.pv
  | .planarYuv420 => t.work.tmp16 = s.work.tmp16 ∧ (c.order = .rgb → t.work.ps = s.work.ps)
  | .vendor => t.work.tmp16 = s.work.tmp16 ∧ (c.order = .rgb → t.work.ps = s.work.ps)
  | .unsupported => t.work = s.work

/-- R, G, B hold the last pixel of the image, whatever the order it was stored in (10_state.md R30: they hold
"the output pixel before it is stored"; log entry 11). -/
def LastPixel (c : CmdFields) (t : State) : Prop :=
  t.work.px = t.pixelAt .dst c.order (c.w.toNat * c.h.toNat - 1)

end Sys2Proof.Machine
end

