-- ==== Sys2Proof/Certificates/Slice0/Obligations.lean ====
section
/-! DEFINITION. The statements about the PFC. Each docstring names the rule of spec/ it formalises; the terms
`Outcomes`, `Succeeded`, `Failed`, `Valid` and the results are defined in Sys2Proof/Safety.lean. -/

open Sys2Proof Sys2Proof.Machine

/-! ### Encoding -/

/-- Decode and encode agree, on words and on bytes, for every well-formed command, every value of every
field (30_encoding.md R80, R81, R84). -/
def Obligations.DecodeOfEncodeIsTheCommand : Prop :=
  ∀ (i : Instr) (rest : List Byte), WellFormed i = true →
    decodeWords (encode i) = .ok i [] ∧ decode (encodeBytes i ++ rest) = .ok i rest

/-- Encode and decode agree the other way: six words that decode are the encoding of what they decode to,
but for the reserved bits w5[31:2], which are ignored (30_encoding.md R81). -/
def Obligations.EncodeOfDecodeIsTheWords : Prop :=
  ∀ (ws : CmdWords) (i : Instr) (rest : List Byte), decodeWords ws = .ok i rest →
    WellFormed i = true ∧ encode i = { ws with w5 := ws.w5 &&& 3#32 }

/-- Bytes are rejected exactly when they are fewer than six words or START is 0 (30_encoding.md R88, R89;
byte order: the model's choice, log entry 3). -/
def Obligations.DecodeRejectsOnlyShortOrUnstarted : Prop :=
  ∀ bs : List Byte,
    (decode bs = .reject .tooShort ↔ bs.length < 24) ∧
    (decode bs = .reject .startClear ↔ 24 ≤ bs.length ∧ (bs.getD 20 0).getLsbD 1 = false)

/-- Words written out from the spec's encodings decode to the commands they stand for (30_encoding.md R81,
R84, R90; 95_test_vectors.md, programs P1 to P4): one for each family, reserved CTRL bits set in the last. -/
def Obligations.WordsOfTheSpecDecode : Prop :=
  decodeWords ⟨0x56595559, 0x00000002, 0x00000002, 0x00000008, 0x0000000C, 0x00000002⟩ =
    .ok (.convertYUYV ⟨2, 2, 8, 12, .rgb⟩) [] ∧
  decodeWords ⟨0x32315559, 0x00000004, 0x00000004, 0x00000018, 0x00000030, 0x00000003⟩ =
    .ok (.convertYU12 ⟨4, 4, 24, 48, .bgr⟩) [] ∧
  decodeWords ⟨0x31303553, 0x00000002, 0x00000002, 0x00000006, 0x0000000C, 0x00000003⟩ =
    .ok (.convertS501 ⟨2, 2, 6, 12, .bgr⟩) [] ∧
  decodeWords ⟨0x34363248, 0x00000280, 0x000001E0, 0x00000000, 0x00000000, 0x00000002⟩ =
    .ok (.convertUnsupported 0x34363248 ⟨640, 480, 0, 0, .rgb⟩) [] ∧
  decodeWords ⟨0x33424752, 0x00000002, 0x00000001, 0x00000006, 0x00000006, 0x00000002⟩ =
    .ok (.convertRGB3 ⟨2, 1, 6, 6, .rgb⟩) [] ∧
  decodeWords ⟨0x50424752, 0x00000001, 0x00000003, 0x00000006, 0x00000009, 0xFFFFFFFE⟩ =
    .ok (.convertRGBP ⟨1, 3, 6, 9, .rgb⟩) []

/-- A code selects UNSUPPORTED exactly when it is none of the eleven (30_encoding.md R84, R88), and the
eleven are pairwise different (R87). -/
def Obligations.UnlistedCodesAreUnsupported : Prop :=
  (∀ (code : Word) (c : CmdFields),
    selectRow code c = .convertUnsupported code c ↔ code ∉ supportedCodes) ∧
  supportedCodes.Nodup

/-- The tag of a code is its four characters, first character first, and a terminator; the code is
recovered from them (30_encoding.md R82, R83). -/
def Obligations.TagIsTheFourCharacters : Prop :=
  (∀ c0 c1 c2 c3 : Byte, tag4 (fourcc c0 c1 c2 c3) = [c0, c1, c2, c3, 0]) ∧
  (∀ code : Word, ∃ c0 c1 c2 c3 : Byte, tagBytes code = [c0, c1, c2, c3] ∧ fourcc c0 c1 c2 c3 = code)

/-! ### Arithmetic -/

/-- The clipper (40_clip_matrix.md R110): its three cases; it is monotone and idempotent. -/
def Obligations.ClipSaturatesToAByte : Prop :=
  (∀ x : Int, (x < 0 → clip x = 0) ∧ (255 < x → clip x = 255) ∧
    (0 ≤ x → x ≤ 255 → ((clip x).toNat : Int) = x)) ∧
  (∀ x y : Int, x ≤ y → (clip x).toNat ≤ (clip y).toNat) ∧
  (∀ x : Int, clip ((clip x).toNat : Int) = clip x)

/-- The chroma terms are the floored closed forms (40_clip_matrix.md R111, R114): the 16-bit registers lose
nothing. -/
def Obligations.ChromaTermsAreClosedForms : Prop :=
  ∀ u v : Byte,
    (chromaTerms u v).u1.toInt = (129 * ((u.toNat : Int) - 128)) / 64 ∧
    (chromaTerms u v).rg.toInt = (3 * ((u.toNat : Int) - 128) + 6 * ((v.toNat : Int) - 128)) / 8 ∧
    (chromaTerms u v).v1.toInt = (3 * ((v.toNat : Int) - 128)) / 2

/-- The ranges of the chroma terms and of the sums that are clipped (40_clip_matrix.md R113). -/
def Obligations.ChromaTermsAndSumsStayInRange : Prop :=
  ∀ y u v : Byte,
    let t := chromaTerms u v
    (-258 ≤ t.u1.toInt ∧ t.u1.toInt ≤ 255) ∧ (-144 ≤ t.rg.toInt ∧ t.rg.toInt ≤ 142) ∧
    (-192 ≤ t.v1.toInt ∧ t.v1.toInt ≤ 190) ∧
    (-192 ≤ y.toNat + t.v1.toInt ∧ y.toNat + t.v1.toInt ≤ 445) ∧
    (-142 ≤ y.toNat - t.rg.toInt ∧ y.toNat - t.rg.toInt ≤ 399) ∧
    (-258 ≤ y.toNat + t.u1.toInt ∧ y.toNat + t.u1.toInt ≤ 510)

/-- The pixel matrix (40_clip_matrix.md R112): each channel is the clipped sum of luma and its term, R, G, B
in this order; zero terms give `(Y, Y, Y)`. -/
def Obligations.PixelClipsLumaPlusTerm : Prop :=
  (∀ (y : Byte) (t : Terms),
    (pixel y t).r = clip ((y.toNat : Int) + t.v1.toInt) ∧
    (pixel y t).g = clip ((y.toNat : Int) - t.rg.toInt) ∧
    (pixel y t).b = clip ((y.toNat : Int) + t.u1.toInt)) ∧
  (∀ y : Byte, pixel y ⟨0, 0, 0⟩ = ⟨y, y, y⟩)

/-- Neutral chroma (40_clip_matrix.md R115): `U = V = 128` gives `R = G = B = Y` for every `Y`; and a uniform
YUYV frame of 128 converts to 128 everywhere, in either order. -/
def Obligations.NeutralChromaGivesGrey : Prop :=
  (∀ y : Byte, pixel y (chromaTerms 128 128) = ⟨y, y, y⟩) ∧
  (∀ (c : CmdFields) (s : State), s.ScratchFree → Valid .packedYuv422 c → s.CapHolds (singleStageNeed c) →
    (∀ a, a < 2 * (c.w.toNat * c.h.toNat) → s.byteAt .src a = 128) →
    ∃ t, exec (.convertYUYV c) s = .next t ∧ t.status.result = 0 ∧
      ∀ a, a < 3 * (c.w.toNat * c.h.toNat) → t.byteAt .dst a = 128)

/-- Chroma sharing (40_clip_matrix.md R116): two pixels with the same chroma pair, none of whose sums leaves
0..255, differ in every channel by the difference of their luma. -/
def Obligations.SharedChromaDiffersByLuma : Prop :=
  ∀ y y' u v : Byte,
    let t := chromaTerms u v
    (∀ z : Byte, z = y ∨ z = y' →
      (0 ≤ (z.toNat : Int) + t.v1.toInt ∧ (z.toNat : Int) + t.v1.toInt ≤ 255) ∧
      (0 ≤ (z.toNat : Int) - t.rg.toInt ∧ (z.toNat : Int) - t.rg.toInt ≤ 255) ∧
      (0 ≤ (z.toNat : Int) + t.u1.toInt ∧ (z.toNat : Int) + t.u1.toInt ≤ 255)) →
    ((pixel y' t).r.toNat : Int) - (pixel y t).r.toNat = (y'.toNat : Int) - y.toNat ∧
    ((pixel y' t).g.toNat : Int) - (pixel y t).g.toNat = (y'.toNat : Int) - y.toNat ∧
    ((pixel y' t).b.toNat : Int) - (pixel y t).b.toNat = (y'.toNat : Int) - y.toNat

/-- The rebias (45_vendor_two_stage.md R190): `(b + 128) mod 256`; bit 7 is flipped and bits 6..0 are left;
it is its own inverse. -/
def Obligations.RebiasFlipsTheSignBit : Prop :=
  ∀ b : Byte,
    (rebias b).toNat = (b.toNat + 128) % 256 ∧
    (rebias b).getLsbD 7 = !b.getLsbD 7 ∧
    (∀ j, j < 7 → (rebias b).getLsbD j = b.getLsbD j) ∧
    rebias (rebias b) = b

/-- The default RGB565_UNPACK is the shift-and-mask form (42_rgb565.md R141, from general knowledge there;
log entry 8). -/
def Obligations.DefaultUnpackShiftsAndMasks : Prop :=
  ∀ t : BitVec 16,
    (unpack565 .zeroFill t).r = ((t >>> 8) &&& 0xF8#16).truncate 8 ∧
    (unpack565 .zeroFill t).g = ((t >>> 3) &&& 0xFC#16).truncate 8 ∧
    (unpack565 .zeroFill t).b = ((t <<< 3) &&& 0xF8#16).truncate 8

/-! ### The host's accesses

They wait in the state's `bus`, the head being the next: the model's form (log entry 1). -/

/-- Each of the five command registers takes every value and reads it back; no other register offset reads
differently and no other state changes (10_state.md R21 to R25, R29). -/
def Obligations.CommandRegistersReadBack : Prop :=
  ∀ (s : State) (off : Nat) (v : Word) (rest : List HostOp),
    off = 0x00 ∨ off = 0x04 ∨ off = 0x08 ∨ off = 0x0C ∨ off = 0x10 →
    s.status.busy = false → s.bus = .wr off v :: rest →
    ∃ t, step s = .next t ∧ readReg off t = v ∧ (∀ o, o ≠ off → readReg o t = readReg o s) ∧
      t = { s with
        bus := rest, format := t.format, width := t.width, height := t.height, srcLen := t.srcLen, dstLen := t.dstLen }

/-- Writes to STATUS, ERRMSG and the reserved offsets are ignored, and the reserved offsets 0x1C and 0x40
upward read 0 (10_state.md R27, R28, R29). -/
def Obligations.ReadOnlyAndReservedIgnoreWrites : Prop :=
  (∀ (s : State) (off : Nat) (v : Word) (rest : List HostOp),
    off % 4 = 0 → 0x18 ≤ off → s.bus = .wr off v :: rest → step s = .next { s with bus := rest }) ∧
  (∀ (s : State) (off : Nat), off = 0x1C ∨ 0x40 ≤ off → readReg off s = 0)

/-- While BUSY every register write is ignored, START among them (10_state.md R29; 70_reset_and_hazards.md R281). -/
def Obligations.BusyIgnoresEveryWrite : Prop :=
  ∀ (s : State) (off : Nat) (v : Word) (rest : List HostOp),
    off % 4 = 0 → s.status.busy = true → s.bus = .wr off v :: rest → step s = .next { s with bus := rest }

/-- A CTRL write with START = 0 only stores ORDER; CTRL reads ORDER in bit 0 and 0 in every other bit
(10_state.md R26). -/
def Obligations.CtrlWithoutStartStoresOrder : Prop :=
  (∀ (s : State) (v : Word) (rest : List HostOp),
    s.status.busy = false → v.getLsbD 1 = false → s.bus = .wr 0x14 v :: rest →
    step s = .next { s with bus := rest, order := if v.getLsbD 0 then .bgr else .rgb }) ∧
  (∀ s : State, readReg 0x14 s = match s.order with | .rgb => 0#32 | .bgr => 1#32)

/-- STATUS as read: BUSY in bit 0, DONE in bit 1, RESULT in bits [3:2], 0 in bits [31:4] (10_state.md R27). -/
def Obligations.StatusWordShowsItsFields : Prop :=
  ∀ s : State,
    (readReg 0x18 s).getLsbD 0 = s.status.busy ∧ (readReg 0x18 s).getLsbD 1 = s.status.done ∧
    (readReg 0x18 s).extractLsb' 2 2 = s.status.result ∧ (readReg 0x18 s).extractLsb' 4 28 = 0 ∧
    resultOfStatus (readReg 0x18 s) = s.status.result

/-- The byte `M[i]` is bits `[8*(i mod 4)+7 : 8*(i mod 4)]` of the word ERRMSG(i div 4) (10_state.md R28). -/
def Obligations.ErrmsgWordsHoldTheBytes : Prop :=
  ∀ (s : State) (i : Fin 32),
    (readReg (0x20 + 4 * (i.val / 4)) s).extractLsb' (8 * (i.val % 4)) 8 = s.errmsg[i]

/-- A register read answers the current value and has no side effect; an access that is not 4-byte aligned
is refused (10_state.md R27, R29; 20_memory.md R60; log entries 12 and 15). -/
def Obligations.ReadsAnswerAndUnalignedIsRefused : Prop :=
  ∀ (s : State) (off : Nat) (v : Word) (rest : List HostOp),
    (off % 4 = 0 → s.bus = .rd off :: rest →
      step s = .next { s with bus := rest, reply := .word (readReg off s) }) ∧
    (off % 4 ≠ 0 → s.bus = .rd off :: rest ∨ s.bus = .wr off v :: rest →
      step s = .refused .unalignedRegisterAccess)

/-- LOADSRC puts its bytes at SRC offsets 0, 1, … and changes nothing else (30_encoding.md R91; log entry 13). -/
def Obligations.LoadSrcFillsTheSource : Prop :=
  ∀ (s : State) (bytes : List Byte) (rest : List HostOp), s.status.busy = false → s.bus = .loadSrc bytes :: rest →
    ∃ t, step s = .next t ∧ (∀ a (h : a < bytes.length), t.byteAt .src a = bytes[a]) ∧
      (∀ a, bytes.length ≤ a → t.byteAt .src a = s.byteAt .src a) ∧ t = { s with bus := rest, src := t.src }

/-- READDST answers the first bytes of DST and changes nothing; past DST_LEN it faults; and neither buffer
may be touched while a command runs (30_encoding.md R91; 20_memory.md R50, R71; log entries 14 and 16). -/
def Obligations.ReadDstAnswersWithinItsLength : Prop :=
  ∀ (s : State) (n : Nat) (bytes : List Byte) (rest : List HostOp),
    (s.status.busy = false → n ≤ s.dstLen.toNat → s.bus = .readDst n :: rest →
      ∃ bs, step s = .next { s with bus := rest, reply := .bytes bs } ∧ bs.length = n ∧
        ∀ a (h : a < bs.length), bs[a] = s.byteAt .dst a) ∧
    (s.status.busy = false → s.dstLen.toNat < n → s.bus = .readDst n :: rest →
      step s = .fault .dstReadOutOfRange) ∧
    (s.status.busy = true → s.bus = .readDst n :: rest ∨ s.bus = .loadSrc bytes :: rest →
      step s = .refused .bufferTouchedDuringCommand)

/-- With no access pending the PFC stays as it is (60_exceptions.md R257; log entry 1). -/
def Obligations.NoAccessLeavesTheMachineIdle : Prop :=
  ∀ s : State, s.bus = [] → step s = .next s

/-! ### Starting a command -/

/-- A step runs the decoded command: when the host's next access is a CTRL write `v`, no command runs, and
the registers and `v` decode to the command `i`, the step is `exec i` after ORDER is stored, the registers
are latched and STATUS is BUSY (10_state.md R26, R31; 46_dispatcher.md R210). -/
def Obligations.StepRunsTheDecodedCommand : Prop :=
  ∀ (s : State) (v : Word) (rest : List HostOp) (i : Instr) (more : List Byte),
    s.status.busy = false → s.bus = .wr 0x14 v :: rest →
    decodeWords ⟨s.format, s.width, s.height, s.srcLen, s.dstLen, v⟩ = .ok i more →
    WellFormed i = true ∧
    step s = exec i { s with
      bus := rest
      order := if v.getLsbD 0 then .bgr else .rgb
      latch := ⟨s.format, s.width, s.height, s.srcLen, s.dstLen, if v.getLsbD 0 then .bgr else .rgb⟩
      status := ⟨true, false, 0⟩
      phase := .check }

/-- The register writes of the pseudo-instruction CONVERT of a well-formed command: the first five are plain, the
sixth runs the command (30_encoding.md R91; 46_dispatcher.md R210). -/
def Obligations.ConvertExpandsToSixWrites : Prop :=
  ∀ (s : State) (i : Instr) (rest : List HostOp), WellFormed i = true → s.status.busy = false →
    s.bus = convertOps (encode i) ++ rest →
    Sys2Proof.core.run 6 s = exec i { s with
      bus := rest
      format := i.code, width := i.fields.w, height := i.fields.h
      srcLen := i.fields.srcLen, dstLen := i.fields.dstLen, order := i.fields.order
      latch := ⟨i.code, i.fields.w, i.fields.h, i.fields.srcLen, i.fields.dstLen, i.fields.order⟩
      status := ⟨true, false, 0⟩
      phase := .check }

/-! ### The commands -/

/-- CONVERT RGB3 and CONVERT BGR3 (41_direct_swap.md R133, R134), in every form: InvalidArgument, else the
source copied if ORDER is its native order and with red and blue exchanged otherwise; never
AllocationFailure, whatever SCRATCH_CAP is. -/
def Obligations.DirectCommandsCopyOrSwap : Prop :=
  (∀ c, selectRow 0x33424752 c = .convertRGB3 c) ∧
  (∀ c, selectRow 0x33524742 c = .convertBGR3 c) ∧
  OutcomesWithoutScratch .packedRgb24 .convertRGB3 (DirectResult .rgb) ∧
  OutcomesWithoutScratch .packedRgb24 .convertBGR3 (DirectResult .bgr)

/-- CONVERT RGBP (42_rgb565.md R142), in every form. -/
def Obligations.RgbpUnpacksEveryPixel : Prop :=
  (∀ c, selectRow 0x50424752 c = .convertRGBP c) ∧
  Outcomes .rgb565 .convertRGBP singleStageNeed Rgb565Result

/-- CONVERT YUYV, YVYU and UYVY (43_packed_yuv422.md R152 to R155), in every form. -/
def Obligations.PackedCommandsConvertEveryGroup : Prop :=
  (∀ c, selectRow 0x56595559 c = .convertYUYV c) ∧
  (∀ c, selectRow 0x55595659 c = .convertYVYU c) ∧
  (∀ c, selectRow 0x59565955 c = .convertUYVY c) ∧
  Outcomes .packedYuv422 .convertYUYV singleStageNeed (PackedResult ⟨0, 1, 2, 3⟩) ∧
  Outcomes .packedYuv422 .convertYVYU singleStageNeed (PackedResult ⟨0, 3, 2, 1⟩) ∧
  Outcomes .packedYuv422 .convertUYVY singleStageNeed (PackedResult ⟨1, 0, 3, 2⟩)

/-- CONVERT YU12 and YV12 (44_planar_yuv420.md R172 to R174), in every form: the U and V planes start at
`W*H` and `5*W*H/4`, in this order for YU12 and the other for YV12. -/
def Obligations.PlanarCommandsReplicateChroma : Prop :=
  (∀ c, selectRow 0x32315559 c = .convertYU12 c) ∧
  (∀ c, selectRow 0x32315659 c = .convertYV12 c) ∧
  Outcomes .planarYuv420 .convertYU12 singleStageNeed (PlanarResult (fun n => n) (fun n => 5 * n / 4)) ∧
  Outcomes .planarYuv420 .convertYV12 singleStageNeed (PlanarResult (fun n => 5 * n / 4) (fun n => n))

/-- CONVERT S501, S505 and S508 (45_vendor_two_stage.md R191 to R197), in every form: the two stages through
SCRY equal one formula from the source, and the intermediate stays in SCRY. That an AllocationFailure after
UNPACK leaves every working register but row and col as it was is the model's reading (log entries 10 and 11). -/
def Obligations.VendorCommandsEqualOneFormula : Prop :=
  (∀ c, selectRow 0x31303553 c = .convertS501 c) ∧
  (∀ c, selectRow 0x35303553 c = .convertS505 c) ∧
  (∀ c, selectRow 0x38303553 c = .convertS508 c) ∧
  Outcomes .vendor .convertS501 vendorNeed (VendorResult fun w => ⟨0, w, 3 * w / 2, 5 * w / 2⟩) ∧
  Outcomes .vendor .convertS505 vendorNeed (VendorResult fun w => ⟨0, 2 * w, w, 5 * w / 2⟩) ∧
  Outcomes .vendor .convertS508 vendorNeed (VendorResult fun w => ⟨0, w, 2 * w, 3 * w / 2⟩)

/-- A command with an unsupported code (46_dispatcher.md R221): UnsupportedFormat whatever the other fields
are, with the message and the failure sequence of 60_exceptions.md R246 and R247; no working register and no scratch byte changes. Two clauses are the model's reading: that the DST range left
unspecified is that of the command's DST_LEN (log entry 21), and that `exec` answers the same
for the term under a registered code, which no word decodes to (log entry 22). -/
def Obligations.UnsupportedCodeEndsInItsError : Prop :=
  (∀ code c, code ∉ supportedCodes → selectRow code c = .convertUnsupported code c) ∧
  ∀ (code : Word) (c : CmdFields) (s : State),
    ∃ t, exec (.convertUnsupported code c) s = .next t ∧ Failed (.unsupportedFormat code) c s t ∧
      t.work = s.work ∧ t.scry = { s.scry with alloc := false } ∧ t.scrr = { s.scrr with alloc := false }

/-- The stage UNPACK (45_vendor_two_stage.md R193), for any four line offsets and any prior state of the space it
writes: the planar intermediate, nothing beyond it, and only the group and column positions change (row and col: log entry 10;
no other: log entry 11). -/
def Obligations.UnpackBuildsThePlanarIntermediate : Prop :=
  ∀ (ln : LineOffsets) (w h : Nat) (inp : Nat → Byte) (p : Pass), w % 2 = 0 → h % 2 = 0 →
    let p' := unpackLoop ln w h inp p
    (∃ mid : Nat → Byte, (∀ a, a < 3 * (w * h) / 2 → p'.out.read a = some (mid a)) ∧ PlanarOf ln w h inp mid) ∧
    (∀ a, 3 * (w * h) / 2 ≤ a → p'.out.read a = p.out.read a) ∧
    p'.work = { p.work with row := p'.work.row, col := p'.work.col }

/-- UNPACK is a bijection of the source bytes `0 .. 3*W*H/2 - 1` onto the intermediate's
(45_vendor_two_stage.md R198): two sources give the same intermediate exactly when they agree there. -/
def Obligations.UnpackLosesNoSourceByte : Prop :=
  ∀ (w h : Nat) (ln : LineOffsets) (inp inp' : Nat → Byte) (p p' : Pass),
    w % 2 = 0 → h % 2 = 0 → ln = linesA w ∨ ln = linesB w ∨ ln = linesC w →
    ((∀ a, a < 3 * (w * h) / 2 → (unpackLoop ln w h inp p).out.read a = (unpackLoop ln w h inp' p').out.read a) ↔
      (∀ a, a < 3 * (w * h) / 2 → inp a = inp' a))

/-- The round trip of the document (41_direct_swap.md R135): RGB3 to BGR, fed back as RGB3 to BGR or as BGR3 to
RGB, gives the original bytes. -/
def Obligations.SwapRoundTripRestoresTheSource : Prop :=
  ∀ (c : CmdFields) (s t s' : State), c.order = .bgr → Valid .packedRgb24 c →
    s.ScratchFree → s'.ScratchFree → exec (.convertRGB3 c) s = .next t →
    (∀ a, a < 3 * (c.w.toNat * c.h.toNat) → s'.byteAt .src a = t.byteAt .dst a) →
    (∃ u, exec (.convertRGB3 c) s' = .next u ∧ u.status.result = 0 ∧
      ∀ a, a < 3 * (c.w.toNat * c.h.toNat) → u.byteAt .dst a = s.byteAt .src a) ∧
    (∃ u, exec (.convertBGR3 { c with order := .rgb }) s' = .next u ∧ u.status.result = 0 ∧
      ∀ a, a < 3 * (c.w.toNat * c.h.toNat) → u.byteAt .dst a = s.byteAt .src a)

/-- Row parity (44_planar_yuv420.md R175): with a uniform Y plane the output of YU12 and YV12 changes only
every 2 rows and every 2 columns. -/
def Obligations.PlanarRowPairsAreAlike : Prop :=
  ∀ (c : CmdFields) (s : State) (make : CmdFields → Instr) (y : Byte),
    make = .convertYU12 ∨ make = .convertYV12 → s.ScratchFree → Valid .planarYuv420 c →
    s.CapHolds (singleStageNeed c) → (∀ a, a < c.w.toNat * c.h.toNat → s.byteAt .src a = y) →
    ∃ t, exec (make c) s = .next t ∧ t.status.result = 0 ∧
      ∀ r k, r < c.h.toNat → k < c.w.toNat →
        t.pixelAt .dst c.order (r * c.w.toNat + k) =
          t.pixelAt .dst c.order (2 * (r / 2) * c.w.toNat + 2 * (k / 2))

/-! ### All commands -/

/-- Which working registers a successful command changes, by its class (10_state.md R30; 40 to 45, the stage
rules; log entry 10 for the copies of the position, log entry 11 for COPY, SWAP and UNPACK). -/
def Obligations.SuccessKeepsTheOtherWorkingRegisters : Prop :=
  ∀ (i : Instr) (s : State), classOf i ≠ .unsupported → s.ScratchFree → Valid (classOf i) i.fields →
    s.CapHolds (scratchNeed (classOf i) i.fields) →
    ∃ t, exec i s = .next t ∧ t.status.result = 0 ∧ WorkFrame (classOf i) i.fields s t

/-- Every decode stage writes R, G, B with the pixel before it is stored (10_state.md R30; 46_dispatcher.md R211,
R212): after a successful command of any class they hold the last pixel of the image, in the order it was asked
for. That COPY and SWAP in the phase DECODE are among these stages, that SWAP in the phase SWAP is not, and that the
registers keep the last pixel is the model's reading (log entry 11). -/
def Obligations.SuccessLeavesTheLastPixelInRGB : Prop :=
  ∀ (i : Instr) (s : State), classOf i ≠ .unsupported → s.ScratchFree → Valid (classOf i) i.fields →
    s.CapHolds (scratchNeed (classOf i) i.fields) →
    ∃ t, exec i s = .next t ∧ t.status.result = 0 ∧ LastPixel i.fields t

/-- Every command ends, idle and DONE, whatever the state; SRC, the registers, the latches and the parameters
are as before (46_dispatcher.md R223, R224; 10_state.md R39; 20_memory.md R61). -/
def Obligations.EveryCommandEndsIdleAndDone : Prop :=
  ∀ (i : Instr) (s : State),
    ∃ t, exec i s = .next t ∧ t.Idle ∧ t.status.done = true ∧ Kept s t

/-- RESULT is determined by the code, the fields and SCRATCH_CAP, in the order UnsupportedFormat,
InvalidArgument, AllocationFailure (60_exceptions.md R241 to R243; 46_dispatcher.md R215, R217). -/
def Obligations.ResultFollowsThePriority : Prop :=
  ∀ (i : Instr) (s t : State), s.ScratchFree → exec i s = .next t →
    let cls := classOf i
    let need := scratchNeed cls i.fields
    (cls = .unsupported → t.status.result = 1) ∧
    (cls ≠ .unsupported → ¬ Valid cls i.fields → t.status.result = 3) ∧
    (cls ≠ .unsupported → Valid cls i.fields → ¬ s.CapHolds need → t.status.result = 2) ∧
    (cls ≠ .unsupported → Valid cls i.fields → s.CapHolds need → t.status.result = 0)

/-- ERRMSG is unchanged by a success and overwritten by a failure with the message of its kind and zeros
(60_exceptions.md R246; 46_dispatcher.md R220; 10_state.md R28). -/
def Obligations.ErrmsgChangesOnlyOnFailure : Prop :=
  ∀ (i : Instr) (s t : State), exec i s = .next t →
    (t.status.result = 0 ∧ t.errmsg = s.errmsg) ∨
    (t.status.result = 1 ∧ ∀ j : Fin 32, t.errmsg[j] = (unsupportedText ++ tagBytes i.code).getD j.val 0) ∨
    (t.status.result = 2 ∧ ∀ j : Fin 32, t.errmsg[j] = allocationText.getD j.val 0) ∨
    (t.status.result = 3 ∧ ∀ j : Fin 32, t.errmsg[j] = invalidText.getD j.val 0)

/-- No command changes a DST byte outside `DST[0 .. DST_LEN-1]`, and a success changes none outside
`DST[0 .. 3*W*H-1]`, from any state (20_memory.md R62; 60_exceptions.md R247). -/
def Obligations.WritesStayInsideTheBuffer : Prop :=
  ∀ (i : Instr) (s t : State), exec i s = .next t →
    (∀ a, i.fields.dstLen.toNat ≤ a → t.byteAt .dst a = s.byteAt .dst a) ∧
    (t.status.result = 0 → ∀ a, 3 * (i.fields.w.toNat * i.fields.h.toNat) ≤ a →
      t.byteAt .dst a = s.byteAt .dst a)

/-- A command is a function of its fields, `SRC[0 .. layout_size-1]` and the parameters (46_dispatcher.md R210,
R219, R222; 20_memory.md R62): neither the rest of SRC, nor old DST, scratch or working register contents, nor
any free value reaches the outcome, the message or the image. -/
def Obligations.CommandDependsOnlyOnItsInputs : Prop :=
  ∀ (i : Instr) (s s' : State), s.ScratchFree → s'.ScratchFree → s'.params = s.params →
    (∀ a, a < layoutSize (classOf i) i.fields.w.toNat i.fields.h.toNat → s'.byteAt .src a = s.byteAt .src a) →
    ∃ t t', exec i s = .next t ∧ exec i s' = .next t' ∧ t'.status = t.status ∧
      (t.status.result = 0 → ∀ a, a < 3 * (i.fields.w.toNat * i.fields.h.toNat) →
        t'.byteAt .dst a = t.byteAt .dst a) ∧
      (t.status.result ≠ 0 → t'.errmsg = t.errmsg)

/-- The source sizes of the layout classes (20_memory.md R52). -/
def Obligations.LayoutSizesOfTheTable : Prop :=
  ∀ w h : Nat,
    layoutSize .packedRgb24 w h = 3 * (w * h) ∧ layoutSize .rgb565 w h = 2 * (w * h) ∧
    layoutSize .packedYuv422 w h = 2 * (w * h) ∧
    (w % 2 = 0 → h % 2 = 0 → layoutSize .planarYuv420 w h = w * h + 2 * (w * h / 4)) ∧
    (w % 2 = 0 → h % 2 = 0 → layoutSize .vendor w h = (h / 2) * (3 * w))

/-! ### Scratch, failure, reset -/

/-- `alloc` grants a request exactly when the bytes in use and the request are at most SCRATCH_CAP, and only
the buffer (and the model's counter of draws) changes; `free` leaves the bytes (46_dispatcher.md R217, R218). -/
def Obligations.AllocGrantsWhatFits : Prop :=
  ∀ (b : Buf) (n : Nat) (s : State),
    let used := (if s.scry.alloc then s.scry.size else 0) + (if s.scrr.alloc then s.scrr.size else 0)
    (s.CapHolds (used + n) → ∃ t, alloc b n s = some t ∧ (t.buf b).alloc = true ∧ (t.buf b).size = n ∧
      t = { s.withBuf b (t.buf b) with draws := t.draws }) ∧
    (¬ s.CapHolds (used + n) → alloc b n s = none) ∧
    free b s = s.withBuf b { s.buf b with alloc := false }

/-- The failure sequence (60_exceptions.md R247) from any state: scratch freed, ERRMSG overwritten, phase IDLE,
STATUS, every byte of `DST[0 .. n-1]` a fresh free value (the model's form of "unspecified": log entry 6), and
every other byte of DST, SRC and scratch as before. -/
def Obligations.RaiseLeavesTheFailureState : Prop :=
  ∀ (k : ErrKind) (n : Nat) (s : State),
    let t := raise k n s
    t.scry = { s.scry with alloc := false } ∧ t.scrr = { s.scrr with alloc := false } ∧
    (∀ j : Fin 32, t.errmsg[j] = (messageText k).getD j.val 0) ∧ t.phase = .idle ∧
    t.status = ⟨false, true, resultCode k⟩ ∧ Kept s t ∧ t.work = s.work ∧
    (∀ a, a < n → t.byteAt .dst a = Config.freshByte s.draws a) ∧
    (∀ a, n ≤ a → t.byteAt .dst a = s.byteAt .dst a)

/-- The messages as texts (60_exceptions.md R246; 10_state.md R28): the bytes before the first 0x00 are the whole
text, for an unsupported code when no character of its tag is 0x00. -/
def Obligations.MessagesReadAsTheirTexts : Prop :=
  errorText (messageBytes (messageText .allocationFailure)) = allocationText ∧
  errorText (messageBytes (messageText .invalidArgument)) = invalidText ∧
  (∀ code : Word, (∀ b ∈ tagBytes code, b ≠ 0) →
    errorText (messageBytes (messageText (.unsupportedFormat code))) = unsupportedText ++ tagBytes code)

/-- The state after reset, where the spec gives a value (10_state.md R38). -/
def Obligations.ResetStateIsTheTable : Prop :=
  State.reset.format = 0 ∧ State.reset.width = 0 ∧ State.reset.height = 0 ∧ State.reset.srcLen = 0 ∧
  State.reset.dstLen = 0 ∧ State.reset.order = .rgb ∧ State.reset.status = ⟨false, false, 0⟩ ∧
  (∀ j : Fin 32, State.reset.errmsg[j] = 0) ∧ State.reset.phase = .idle ∧
  State.reset.scry.alloc = false ∧ State.reset.scrr.alloc = false ∧ errorText State.reset.errmsg = []

/-- The external reset from any state (70_reset_and_hazards.md R270, R271): the table's values, SRC as before,
DST as before but for the range of a command that ran, the parameters as before. -/
def Obligations.ResetRestoresTheTable : Prop :=
  ∀ (s : State) (rest : List HostOp), s.bus = .reset :: rest →
    ∃ t, step s = .next t ∧ t.format = 0 ∧ t.width = 0 ∧ t.height = 0 ∧ t.srcLen = 0 ∧ t.dstLen = 0 ∧
      t.order = .rgb ∧ t.status = ⟨false, false, 0⟩ ∧ (∀ j : Fin 32, t.errmsg[j] = 0) ∧ t.Idle ∧
      t.src = s.src ∧ t.params = s.params ∧ t.bus = rest ∧
      (s.status.busy = false → ∀ a, t.byteAt .dst a = s.byteAt .dst a) ∧
      (∀ a, s.latch.dstLen.toNat ≤ a → t.byteAt .dst a = s.byteAt .dst a)

/-- A START without any set-up after reset ends with UnsupportedFormat and does no harm
(70_reset_and_hazards.md R272; 10_state.md R21). -/
def Obligations.StartAfterResetIsUnsupported : Prop :=
  ∀ v : Word, v.getLsbD 1 = true →
    ∃ t, step { State.reset with bus := [.wr 0x14 v] } = .next t ∧ readReg 0x18 t = 6 ∧
      (∀ a, t.byteAt .dst a = State.reset.byteAt .dst a) ∧ errorText t.errmsg = unsupportedText

/-! ### The machine as a whole -/

/-- The invariant holds after reset; its parts on memories and free values are about the model's own form (log
entries 4 to 6). -/
def Obligations.InvariantHoldsAtReset : Prop := State.reset.Inv

/-- The invariant is kept by every step from every state that meets it: the machine is idle between steps
(10_state.md R39), the memories keep their form and the free values stay fresh (log entries 4 to 6), ERRMSG stays
terminated, RESULT needs DONE. -/
def Obligations.EveryStepKeepsTheInvariant : Prop :=
  ∀ s t : State, s.Inv → step s = .next t → t.Inv

/-- Only a START write while not BUSY, and reset, change STATUS, ERRMSG, the phase, the latches, the working
registers, the scratch buffers or DST (46_dispatcher.md R210; 10_state.md R34, R36). -/
def Obligations.OnlyStartAndResetRunTheEngine : Prop :=
  ∀ s t : State, step s = .next t →
    (∃ rest, s.bus = .reset :: rest) ∨
    (∃ v rest, s.bus = .wr 0x14 v :: rest ∧ v.getLsbD 1 = true ∧ s.status.busy = false) ∨
    (t.status = s.status ∧ t.errmsg = s.errmsg ∧ t.phase = s.phase ∧ t.latch = s.latch ∧ t.work = s.work ∧
      t.scry = s.scry ∧ t.scrr = s.scrr ∧ t.dst = s.dst ∧ t.dstJunk = s.dstJunk)

/-- SRC changes only by LOADSRC (20_memory.md R61), and the parameters never (10_state.md R37). -/
def Obligations.OnlyTheHostChangesTheSource : Prop :=
  ∀ s t : State, step s = .next t →
    t.params = s.params ∧ (t.src = s.src ∨ ∃ bytes rest, s.bus = .loadSrc bytes :: rest)
end

