-- ==== Sys2Proof/Laws/State.lean ====
section
/-! SUPPORT. One lemma per field per update of the state, so that no proof unfolds a record update. -/

namespace Sys2Proof.Machine

/-! ### `enter` -/

@[simp] theorem State.enter_format (s : State) (p : Phase) : (s.enter p).format = s.format := rfl
@[simp] theorem State.enter_width (s : State) (p : Phase) : (s.enter p).width = s.width := rfl
@[simp] theorem State.enter_height (s : State) (p : Phase) : (s.enter p).height = s.height := rfl
@[simp] theorem State.enter_srcLen (s : State) (p : Phase) : (s.enter p).srcLen = s.srcLen := rfl
@[simp] theorem State.enter_dstLen (s : State) (p : Phase) : (s.enter p).dstLen = s.dstLen := rfl
@[simp] theorem State.enter_order (s : State) (p : Phase) : (s.enter p).order = s.order := rfl
@[simp] theorem State.enter_status (s : State) (p : Phase) : (s.enter p).status = s.status := rfl
@[simp] theorem State.enter_errmsg (s : State) (p : Phase) : (s.enter p).errmsg = s.errmsg := rfl
@[simp] theorem State.enter_latch (s : State) (p : Phase) : (s.enter p).latch = s.latch := rfl
@[simp] theorem State.enter_phase (s : State) (p : Phase) : (s.enter p).phase = p := rfl
@[simp] theorem State.enter_work (s : State) (p : Phase) : (s.enter p).work = s.work := rfl
@[simp] theorem State.enter_scry (s : State) (p : Phase) : (s.enter p).scry = s.scry := rfl
@[simp] theorem State.enter_scrr (s : State) (p : Phase) : (s.enter p).scrr = s.scrr := rfl
@[simp] theorem State.enter_src (s : State) (p : Phase) : (s.enter p).src = s.src := rfl
@[simp] theorem State.enter_dst (s : State) (p : Phase) : (s.enter p).dst = s.dst := rfl
@[simp] theorem State.enter_dstJunk (s : State) (p : Phase) : (s.enter p).dstJunk = s.dstJunk := rfl
@[simp] theorem State.enter_draws (s : State) (p : Phase) : (s.enter p).draws = s.draws := rfl
@[simp] theorem State.enter_params (s : State) (p : Phase) : (s.enter p).params = s.params := rfl
@[simp] theorem State.enter_bus (s : State) (p : Phase) : (s.enter p).bus = s.bus := rfl
@[simp] theorem State.enter_reply (s : State) (p : Phase) : (s.enter p).reply = s.reply := rfl
@[simp] theorem State.byteAt_enter (s : State) (p : Phase) (sp : Space) : (s.enter p).byteAt sp = s.byteAt sp := by cases sp <;> rfl
@[simp] theorem State.memOf_enter (s : State) (p : Phase) (sp : Space) : (s.enter p).memOf sp = s.memOf sp := by cases sp <;> rfl

/-! ### `runStage` -/

@[simp] theorem State.runStage_format (s : State) (out : Space) (f : Pass → Pass) : (s.runStage out f).format = s.format := by cases out <;> rfl
@[simp] theorem State.runStage_width (s : State) (out : Space) (f : Pass → Pass) : (s.runStage out f).width = s.width := by cases out <;> rfl
@[simp] theorem State.runStage_height (s : State) (out : Space) (f : Pass → Pass) : (s.runStage out f).height = s.height := by cases out <;> rfl
@[simp] theorem State.runStage_srcLen (s : State) (out : Space) (f : Pass → Pass) : (s.runStage out f).srcLen = s.srcLen := by cases out <;> rfl
@[simp] theorem State.runStage_dstLen (s : State) (out : Space) (f : Pass → Pass) : (s.runStage out f).dstLen = s.dstLen := by cases out <;> rfl
@[simp] theorem State.runStage_order (s : State) (out : Space) (f : Pass → Pass) : (s.runStage out f).order = s.order := by cases out <;> rfl
@[simp] theorem State.runStage_status (s : State) (out : Space) (f : Pass → Pass) : (s.runStage out f).status = s.status := by cases out <;> rfl
@[simp] theorem State.runStage_errmsg (s : State) (out : Space) (f : Pass → Pass) : (s.runStage out f).errmsg = s.errmsg := by cases out <;> rfl
@[simp] theorem State.runStage_latch (s : State) (out : Space) (f : Pass → Pass) : (s.runStage out f).latch = s.latch := by cases out <;> rfl
@[simp] theorem State.runStage_phase (s : State) (out : Space) (f : Pass → Pass) : (s.runStage out f).phase = s.phase := by cases out <;> rfl
@[simp] theorem State.runStage_work (s : State) (out : Space) (f : Pass → Pass) : (s.runStage out f).work = (f ⟨s.work, s.memOf out⟩).work := by cases out <;> rfl
@[simp] theorem State.runStage_dstJunk (s : State) (out : Space) (f : Pass → Pass) : (s.runStage out f).dstJunk = s.dstJunk := by cases out <;> rfl
@[simp] theorem State.runStage_draws (s : State) (out : Space) (f : Pass → Pass) : (s.runStage out f).draws = s.draws := by cases out <;> rfl
@[simp] theorem State.runStage_params (s : State) (out : Space) (f : Pass → Pass) : (s.runStage out f).params = s.params := by cases out <;> rfl
@[simp] theorem State.runStage_bus (s : State) (out : Space) (f : Pass → Pass) : (s.runStage out f).bus = s.bus := by cases out <;> rfl
@[simp] theorem State.runStage_reply (s : State) (out : Space) (f : Pass → Pass) : (s.runStage out f).reply = s.reply := by cases out <;> rfl
@[simp] theorem State.runStage_dst_src (s : State) (f : Pass → Pass) : (s.runStage .dst f).src = s.src := rfl
@[simp] theorem State.runStage_dst_dst (s : State) (f : Pass → Pass) : (s.runStage .dst f).dst = (f ⟨s.work, s.dst⟩).out := rfl
@[simp] theorem State.runStage_dst_scry (s : State) (f : Pass → Pass) : (s.runStage .dst f).scry = s.scry := rfl
@[simp] theorem State.runStage_dst_scrr (s : State) (f : Pass → Pass) : (s.runStage .dst f).scrr = s.scrr := rfl
@[simp] theorem State.runStage_scry_src (s : State) (f : Pass → Pass) : (s.runStage .scry f).src = s.src := rfl
@[simp] theorem State.runStage_scry_dst (s : State) (f : Pass → Pass) : (s.runStage .scry f).dst = s.dst := rfl
@[simp] theorem State.runStage_scry_scry (s : State) (f : Pass → Pass) : (s.runStage .scry f).scry = { s.scry with mem := (f ⟨s.work, s.scry.mem⟩).out } := rfl
@[simp] theorem State.runStage_scry_scrr (s : State) (f : Pass → Pass) : (s.runStage .scry f).scrr = s.scrr := rfl
@[simp] theorem State.runStage_scrr_src (s : State) (f : Pass → Pass) : (s.runStage .scrr f).src = s.src := rfl
@[simp] theorem State.runStage_scrr_dst (s : State) (f : Pass → Pass) : (s.runStage .scrr f).dst = s.dst := rfl
@[simp] theorem State.runStage_scrr_scry (s : State) (f : Pass → Pass) : (s.runStage .scrr f).scry = s.scry := rfl
@[simp] theorem State.runStage_scrr_scrr (s : State) (f : Pass → Pass) : (s.runStage .scrr f).scrr = { s.scrr with mem := (f ⟨s.work, s.scrr.mem⟩).out } := rfl

/-! ### `free` and `freeAll` -/

@[simp] theorem free_scry_format (s : State) : (free .scry s).format = s.format := rfl
@[simp] theorem free_scry_width (s : State) : (free .scry s).width = s.width := rfl
@[simp] theorem free_scry_height (s : State) : (free .scry s).height = s.height := rfl
@[simp] theorem free_scry_srcLen (s : State) : (free .scry s).srcLen = s.srcLen := rfl
@[simp] theorem free_scry_dstLen (s : State) : (free .scry s).dstLen = s.dstLen := rfl
@[simp] theorem free_scry_order (s : State) : (free .scry s).order = s.order := rfl
@[simp] theorem free_scry_status (s : State) : (free .scry s).status = s.status := rfl
@[simp] theorem free_scry_errmsg (s : State) : (free .scry s).errmsg = s.errmsg := rfl
@[simp] theorem free_scry_latch (s : State) : (free .scry s).latch = s.latch := rfl
@[simp] theorem free_scry_phase (s : State) : (free .scry s).phase = s.phase := rfl
@[simp] theorem free_scry_work (s : State) : (free .scry s).work = s.work := rfl
@[simp] theorem free_scry_scry (s : State) : (free .scry s).scry = { s.scry with alloc := false } := rfl
@[simp] theorem free_scry_scrr (s : State) : (free .scry s).scrr = s.scrr := rfl
@[simp] theorem free_scry_src (s : State) : (free .scry s).src = s.src := rfl
@[simp] theorem free_scry_dst (s : State) : (free .scry s).dst = s.dst := rfl
@[simp] theorem free_scry_dstJunk (s : State) : (free .scry s).dstJunk = s.dstJunk := rfl
@[simp] theorem free_scry_draws (s : State) : (free .scry s).draws = s.draws := rfl
@[simp] theorem free_scry_params (s : State) : (free .scry s).params = s.params := rfl
@[simp] theorem free_scry_bus (s : State) : (free .scry s).bus = s.bus := rfl
@[simp] theorem free_scry_reply (s : State) : (free .scry s).reply = s.reply := rfl
@[simp] theorem free_scrr_format (s : State) : (free .scrr s).format = s.format := rfl
@[simp] theorem free_scrr_width (s : State) : (free .scrr s).width = s.width := rfl
@[simp] theorem free_scrr_height (s : State) : (free .scrr s).height = s.height := rfl
@[simp] theorem free_scrr_srcLen (s : State) : (free .scrr s).srcLen = s.srcLen := rfl
@[simp] theorem free_scrr_dstLen (s : State) : (free .scrr s).dstLen = s.dstLen := rfl
@[simp] theorem free_scrr_order (s : State) : (free .scrr s).order = s.order := rfl
@[simp] theorem free_scrr_status (s : State) : (free .scrr s).status = s.status := rfl
@[simp] theorem free_scrr_errmsg (s : State) : (free .scrr s).errmsg = s.errmsg := rfl
@[simp] theorem free_scrr_latch (s : State) : (free .scrr s).latch = s.latch := rfl
@[simp] theorem free_scrr_phase (s : State) : (free .scrr s).phase = s.phase := rfl
@[simp] theorem free_scrr_work (s : State) : (free .scrr s).work = s.work := rfl
@[simp] theorem free_scrr_scry (s : State) : (free .scrr s).scry = s.scry := rfl
@[simp] theorem free_scrr_scrr (s : State) : (free .scrr s).scrr = { s.scrr with alloc := false } := rfl
@[simp] theorem free_scrr_src (s : State) : (free .scrr s).src = s.src := rfl
@[simp] theorem free_scrr_dst (s : State) : (free .scrr s).dst = s.dst := rfl
@[simp] theorem free_scrr_dstJunk (s : State) : (free .scrr s).dstJunk = s.dstJunk := rfl
@[simp] theorem free_scrr_draws (s : State) : (free .scrr s).draws = s.draws := rfl
@[simp] theorem free_scrr_params (s : State) : (free .scrr s).params = s.params := rfl
@[simp] theorem free_scrr_bus (s : State) : (free .scrr s).bus = s.bus := rfl
@[simp] theorem free_scrr_reply (s : State) : (free .scrr s).reply = s.reply := rfl
@[simp] theorem freeAll_format (s : State) : (freeAll s).format = s.format := rfl
@[simp] theorem freeAll_width (s : State) : (freeAll s).width = s.width := rfl
@[simp] theorem freeAll_height (s : State) : (freeAll s).height = s.height := rfl
@[simp] theorem freeAll_srcLen (s : State) : (freeAll s).srcLen = s.srcLen := rfl
@[simp] theorem freeAll_dstLen (s : State) : (freeAll s).dstLen = s.dstLen := rfl
@[simp] theorem freeAll_order (s : State) : (freeAll s).order = s.order := rfl
@[simp] theorem freeAll_status (s : State) : (freeAll s).status = s.status := rfl
@[simp] theorem freeAll_errmsg (s : State) : (freeAll s).errmsg = s.errmsg := rfl
@[simp] theorem freeAll_latch (s : State) : (freeAll s).latch = s.latch := rfl
@[simp] theorem freeAll_phase (s : State) : (freeAll s).phase = s.phase := rfl
@[simp] theorem freeAll_work (s : State) : (freeAll s).work = s.work := rfl
@[simp] theorem freeAll_scry (s : State) : (freeAll s).scry = { s.scry with alloc := false } := rfl
@[simp] theorem freeAll_scrr (s : State) : (freeAll s).scrr = { s.scrr with alloc := false } := rfl
@[simp] theorem freeAll_src (s : State) : (freeAll s).src = s.src := rfl
@[simp] theorem freeAll_dst (s : State) : (freeAll s).dst = s.dst := rfl
@[simp] theorem freeAll_dstJunk (s : State) : (freeAll s).dstJunk = s.dstJunk := rfl
@[simp] theorem freeAll_draws (s : State) : (freeAll s).draws = s.draws := rfl
@[simp] theorem freeAll_params (s : State) : (freeAll s).params = s.params := rfl
@[simp] theorem freeAll_bus (s : State) : (freeAll s).bus = s.bus := rfl
@[simp] theorem freeAll_reply (s : State) : (freeAll s).reply = s.reply := rfl
@[simp] theorem byteAt_free (b : Buf) (s : State) (sp : Space) : (free b s).byteAt sp = s.byteAt sp := by cases b <;> cases sp <;> rfl
@[simp] theorem byteAt_freeAll (s : State) (sp : Space) : (freeAll s).byteAt sp = s.byteAt sp := by cases sp <;> rfl

/-! ### `succeed` -/

@[simp] theorem succeed_format (s : State) : (succeed s).format = s.format := rfl
@[simp] theorem succeed_width (s : State) : (succeed s).width = s.width := rfl
@[simp] theorem succeed_height (s : State) : (succeed s).height = s.height := rfl
@[simp] theorem succeed_srcLen (s : State) : (succeed s).srcLen = s.srcLen := rfl
@[simp] theorem succeed_dstLen (s : State) : (succeed s).dstLen = s.dstLen := rfl
@[simp] theorem succeed_order (s : State) : (succeed s).order = s.order := rfl
@[simp] theorem succeed_status (s : State) : (succeed s).status = statusOk := rfl
@[simp] theorem succeed_errmsg (s : State) : (succeed s).errmsg = s.errmsg := rfl
@[simp] theorem succeed_latch (s : State) : (succeed s).latch = s.latch := rfl
@[simp] theorem succeed_phase (s : State) : (succeed s).phase = .idle := rfl
@[simp] theorem succeed_work (s : State) : (succeed s).work = s.work := rfl
@[simp] theorem succeed_scry (s : State) : (succeed s).scry = { s.scry with alloc := false } := rfl
@[simp] theorem succeed_scrr (s : State) : (succeed s).scrr = { s.scrr with alloc := false } := rfl
@[simp] theorem succeed_src (s : State) : (succeed s).src = s.src := rfl
@[simp] theorem succeed_dst (s : State) : (succeed s).dst = s.dst := rfl
@[simp] theorem succeed_dstJunk (s : State) : (succeed s).dstJunk = s.dstJunk := rfl
@[simp] theorem succeed_draws (s : State) : (succeed s).draws = s.draws := rfl
@[simp] theorem succeed_params (s : State) : (succeed s).params = s.params := rfl
@[simp] theorem succeed_bus (s : State) : (succeed s).bus = s.bus := rfl
@[simp] theorem succeed_reply (s : State) : (succeed s).reply = s.reply := rfl
@[simp] theorem byteAt_succeed (s : State) (sp : Space) : (succeed s).byteAt sp = s.byteAt sp := by cases sp <;> rfl

/-! ### `spoilDst` -/

@[simp] theorem spoilDst_format (n : Nat) (s : State) : (spoilDst n s).format = s.format := by unfold spoilDst; split <;> rfl
@[simp] theorem spoilDst_width (n : Nat) (s : State) : (spoilDst n s).width = s.width := by unfold spoilDst; split <;> rfl
@[simp] theorem spoilDst_height (n : Nat) (s : State) : (spoilDst n s).height = s.height := by unfold spoilDst; split <;> rfl
@[simp] theorem spoilDst_srcLen (n : Nat) (s : State) : (spoilDst n s).srcLen = s.srcLen := by unfold spoilDst; split <;> rfl
@[simp] theorem spoilDst_dstLen (n : Nat) (s : State) : (spoilDst n s).dstLen = s.dstLen := by unfold spoilDst; split <;> rfl
@[simp] theorem spoilDst_order (n : Nat) (s : State) : (spoilDst n s).order = s.order := by unfold spoilDst; split <;> rfl
@[simp] theorem spoilDst_status (n : Nat) (s : State) : (spoilDst n s).status = s.status := by unfold spoilDst; split <;> rfl
@[simp] theorem spoilDst_errmsg (n : Nat) (s : State) : (spoilDst n s).errmsg = s.errmsg := by unfold spoilDst; split <;> rfl
@[simp] theorem spoilDst_latch (n : Nat) (s : State) : (spoilDst n s).latch = s.latch := by unfold spoilDst; split <;> rfl
@[simp] theorem spoilDst_phase (n : Nat) (s : State) : (spoilDst n s).phase = s.phase := by unfold spoilDst; split <;> rfl
@[simp] theorem spoilDst_work (n : Nat) (s : State) : (spoilDst n s).work = s.work := by unfold spoilDst; split <;> rfl
@[simp] theorem spoilDst_scry (n : Nat) (s : State) : (spoilDst n s).scry = s.scry := by unfold spoilDst; split <;> rfl
@[simp] theorem spoilDst_scrr (n : Nat) (s : State) : (spoilDst n s).scrr = s.scrr := by unfold spoilDst; split <;> rfl
@[simp] theorem spoilDst_src (n : Nat) (s : State) : (spoilDst n s).src = s.src := by unfold spoilDst; split <;> rfl
@[simp] theorem spoilDst_params (n : Nat) (s : State) : (spoilDst n s).params = s.params := by unfold spoilDst; split <;> rfl
@[simp] theorem spoilDst_bus (n : Nat) (s : State) : (spoilDst n s).bus = s.bus := by unfold spoilDst; split <;> rfl
@[simp] theorem spoilDst_reply (n : Nat) (s : State) : (spoilDst n s).reply = s.reply := by unfold spoilDst; split <;> rfl

/-! ### `raise` -/

@[simp] theorem raise_format (k : ErrKind) (n : Nat) (s : State) : (raise k n s).format = s.format := by simp [raise]
@[simp] theorem raise_width (k : ErrKind) (n : Nat) (s : State) : (raise k n s).width = s.width := by simp [raise]
@[simp] theorem raise_height (k : ErrKind) (n : Nat) (s : State) : (raise k n s).height = s.height := by simp [raise]
@[simp] theorem raise_srcLen (k : ErrKind) (n : Nat) (s : State) : (raise k n s).srcLen = s.srcLen := by simp [raise]
@[simp] theorem raise_dstLen (k : ErrKind) (n : Nat) (s : State) : (raise k n s).dstLen = s.dstLen := by simp [raise]
@[simp] theorem raise_order (k : ErrKind) (n : Nat) (s : State) : (raise k n s).order = s.order := by simp [raise]
@[simp] theorem raise_status (k : ErrKind) (n : Nat) (s : State) : (raise k n s).status = statusFailed k := by simp [raise]
@[simp] theorem raise_errmsg (k : ErrKind) (n : Nat) (s : State) : (raise k n s).errmsg = messageBytes (messageText k) := by simp [raise]
@[simp] theorem raise_latch (k : ErrKind) (n : Nat) (s : State) : (raise k n s).latch = s.latch := by simp [raise]
@[simp] theorem raise_phase (k : ErrKind) (n : Nat) (s : State) : (raise k n s).phase = .idle := by simp [raise]
@[simp] theorem raise_work (k : ErrKind) (n : Nat) (s : State) : (raise k n s).work = s.work := by simp [raise]
@[simp] theorem raise_scry (k : ErrKind) (n : Nat) (s : State) : (raise k n s).scry = { s.scry with alloc := false } := by simp [raise]
@[simp] theorem raise_scrr (k : ErrKind) (n : Nat) (s : State) : (raise k n s).scrr = { s.scrr with alloc := false } := by simp [raise]
@[simp] theorem raise_src (k : ErrKind) (n : Nat) (s : State) : (raise k n s).src = s.src := by simp [raise]
@[simp] theorem raise_dst (k : ErrKind) (n : Nat) (s : State) : (raise k n s).dst = (spoilDst n s).dst := by unfold raise spoilDst; split <;> rfl
@[simp] theorem raise_dstJunk (k : ErrKind) (n : Nat) (s : State) : (raise k n s).dstJunk = (spoilDst n s).dstJunk := by unfold raise spoilDst; split <;> rfl
@[simp] theorem raise_draws (k : ErrKind) (n : Nat) (s : State) : (raise k n s).draws = (spoilDst n s).draws := by unfold raise spoilDst; split <;> rfl
@[simp] theorem raise_params (k : ErrKind) (n : Nat) (s : State) : (raise k n s).params = s.params := by simp [raise]
@[simp] theorem raise_bus (k : ErrKind) (n : Nat) (s : State) : (raise k n s).bus = s.bus := by simp [raise]
@[simp] theorem raise_reply (k : ErrKind) (n : Nat) (s : State) : (raise k n s).reply = s.reply := by simp [raise]

/-! ### `latchCommand` -/

@[simp] theorem latchCommand_format (s : State) : (latchCommand s).format = s.format := rfl
@[simp] theorem latchCommand_width (s : State) : (latchCommand s).width = s.width := rfl
@[simp] theorem latchCommand_height (s : State) : (latchCommand s).height = s.height := rfl
@[simp] theorem latchCommand_srcLen (s : State) : (latchCommand s).srcLen = s.srcLen := rfl
@[simp] theorem latchCommand_dstLen (s : State) : (latchCommand s).dstLen = s.dstLen := rfl
@[simp] theorem latchCommand_order (s : State) : (latchCommand s).order = s.order := rfl
@[simp] theorem latchCommand_status (s : State) : (latchCommand s).status = statusBusy := rfl
@[simp] theorem latchCommand_errmsg (s : State) : (latchCommand s).errmsg = s.errmsg := rfl
@[simp] theorem latchCommand_latch (s : State) : (latchCommand s).latch = ⟨s.format, s.width, s.height, s.srcLen, s.dstLen, s.order⟩ := rfl
@[simp] theorem latchCommand_phase (s : State) : (latchCommand s).phase = .check := rfl
@[simp] theorem latchCommand_work (s : State) : (latchCommand s).work = s.work := rfl
@[simp] theorem latchCommand_scry (s : State) : (latchCommand s).scry = s.scry := rfl
@[simp] theorem latchCommand_scrr (s : State) : (latchCommand s).scrr = s.scrr := rfl
@[simp] theorem latchCommand_src (s : State) : (latchCommand s).src = s.src := rfl
@[simp] theorem latchCommand_dst (s : State) : (latchCommand s).dst = s.dst := rfl
@[simp] theorem latchCommand_dstJunk (s : State) : (latchCommand s).dstJunk = s.dstJunk := rfl
@[simp] theorem latchCommand_draws (s : State) : (latchCommand s).draws = s.draws := rfl
@[simp] theorem latchCommand_params (s : State) : (latchCommand s).params = s.params := rfl
@[simp] theorem latchCommand_bus (s : State) : (latchCommand s).bus = s.bus := rfl
@[simp] theorem latchCommand_reply (s : State) : (latchCommand s).reply = s.reply := rfl
@[simp] theorem byteAt_latchCommand (s : State) (sp : Space) : (latchCommand s).byteAt sp = s.byteAt sp := by cases sp <;> rfl

end Sys2Proof.Machine
end

