-- ==== Sys2Proof/Laws/Memory.lean ====
section
/-! SUPPORT. The laws of one memory: what a read gives after each operation, and that each operation keeps
the canonical form. -/

namespace Sys2Proof.Machine

@[simp] theorem Memory.read_nil (a : Nat) : Memory.read [] a = none := rfl

theorem Memory.read_cons (x : Nat) (b : Byte) (t : Memory) (a : Nat) :
    Memory.read ((x, b) :: t) a = if a = x then some b else Memory.read t a := rfl

/-- A read after a write. -/
theorem Memory.read_write (m : Memory) (a : Nat) (b : Byte) (a' : Nat) :
    (m.write a b).read a' = if a' = a then some b else m.read a' := by
  induction m with
  | nil => rfl
  | cons c t ih =>
    obtain ⟨x, y⟩ := c
    simp only [Memory.write]
    split
    · simp [Memory.read_cons]
    · split
      · next h => subst h; simp only [Memory.read_cons]; split <;> rfl
      · simp only [Memory.read_cons, ih]
        split <;> split <;> simp_all

@[simp] theorem Memory.read_write_same (m : Memory) (a : Nat) (b : Byte) : (m.write a b).read a = some b := by
  simp [Memory.read_write]

theorem Memory.read_write_other (m : Memory) {a a' : Nat} (b : Byte) (h : a' ≠ a) :
    (m.write a b).read a' = m.read a' := by
  simp [Memory.read_write, h]

/-- Every address of a memory after a write is the one written or was there before. -/
theorem Memory.mem_write {m : Memory} {a : Nat} {b : Byte} {c : Host.Cell} (h : c ∈ m.write a b) :
    c.1 = a ∨ c ∈ m := by
  induction m with
  | nil => simp_all [Memory.write]
  | cons d t ih =>
    obtain ⟨x, y⟩ := d
    simp only [Memory.write] at h
    split at h
    · rcases List.mem_cons.1 h with rfl | h
      · exact .inl rfl
      · exact .inr h
    · split at h
      · rcases List.mem_cons.1 h with rfl | h
        · exact .inl rfl
        · exact .inr (List.mem_cons_of_mem _ h)
      · rcases List.mem_cons.1 h with rfl | h
        · exact .inr (List.mem_cons_self ..)
        · exact (ih h).imp id (List.mem_cons_of_mem _)

/-- A write keeps the canonical form. -/
theorem Memory.wf_write {m : Memory} (h : m.wf) (a : Nat) (b : Byte) : (m.write a b).wf := by
  induction m with
  | nil => simp [Memory.write]
  | cons d t ih =>
    obtain ⟨x, y⟩ := d
    obtain ⟨hx, ht⟩ := List.pairwise_cons.1 h
    simp only [Memory.write]
    split
    · next hlt =>
      refine List.pairwise_cons.2 ⟨fun c hc => ?_, h⟩
      rcases List.mem_cons.1 hc with rfl | hc
      · exact hlt
      · exact Nat.lt_trans hlt (hx c hc)
    · split
      · next heq => exact List.pairwise_cons.2 ⟨fun c hc => by simpa [heq] using hx c hc, ht⟩
      · refine List.pairwise_cons.2 ⟨fun c hc => ?_, ih ht⟩
        rcases Memory.mem_write hc with hc | hc
        · show x < c.1
          omega
        · exact hx c hc

/-- A read after storing consecutive bytes. -/
theorem Memory.read_writeList (m : Memory) (a : Nat) (bs : List Byte) (a' : Nat) :
    (m.writeList a bs).read a' = if a ≤ a' then (bs[a' - a]?).or (m.read a') else m.read a' := by
  induction bs generalizing m a with
  | nil => simp [Memory.writeList]
  | cons b bs ih =>
    simp only [Memory.writeList, ih, Memory.read_write]
    by_cases h1 : a' = a
    · subst h1; simp
    · by_cases h2 : a + 1 ≤ a'
      · have h3 : a ≤ a' := by omega
        have h4 : a' - a = (a' - (a + 1)) + 1 := by omega
        rw [if_pos h2, if_pos h3, if_neg h1, h4, List.getElem?_cons_succ]
      · rw [if_neg h2, if_neg h1, if_neg (by omega)]

theorem Memory.wf_writeList {m : Memory} (h : m.wf) (a : Nat) (bs : List Byte) : (m.writeList a bs).wf := by
  induction bs generalizing m a with
  | nil => exact h
  | cons b bs ih => exact ih (Memory.wf_write h a b) (a + 1)

/-- Dropping the bytes below an offset forgets exactly those. -/
theorem Memory.read_dropBelow (m : Memory) (n a : Nat) :
    (m.dropBelow n).read a = if n ≤ a then m.read a else none := by
  induction m with
  | nil => simp [Memory.dropBelow]
  | cons c t ih =>
    obtain ⟨x, y⟩ := c
    rw [Memory.dropBelow] at ih
    simp only [Memory.dropBelow, List.filter_cons]
    split <;> simp_all [Memory.read_cons] <;> split <;> (simp_all; try omega)

theorem Memory.wf_dropBelow {m : Memory} (h : m.wf) (n : Nat) : (m.dropBelow n).wf :=
  List.Pairwise.sublist List.filter_sublist h

/-- No byte is listed at or below an offset that all addresses pass. -/
theorem Memory.read_below {m : Memory} {z : Nat} (h : ∀ c ∈ m, z < c.1) {a : Nat} (ha : a ≤ z) :
    m.read a = none := by
  induction m with
  | nil => rfl
  | cons c t ih =>
    obtain ⟨x, b⟩ := c
    have h1 : z < x := h (x, b) (List.mem_cons_self ..)
    rw [Memory.read_cons, if_neg (by omega)]
    exact ih fun c hc => h c (List.mem_cons_of_mem _ hc)

/-- Two memories in canonical form that read alike are equal. -/
theorem Memory.ext_read {m n : Memory} (hm : m.wf) (hn : n.wf) (h : ∀ a, m.read a = n.read a) : m = n := by
  induction m generalizing n with
  | nil =>
    cases n with
    | nil => rfl
    | cons c t => have := h c.1; simp [Memory.read] at this
  | cons c t ih =>
    cases n with
    | nil => have := h c.1; simp [Memory.read] at this
    | cons d u =>
      obtain ⟨x, b⟩ := c
      obtain ⟨y, e⟩ := d
      obtain ⟨hx, ht⟩ := List.pairwise_cons.1 hm
      obtain ⟨hy, hu⟩ := List.pairwise_cons.1 hn
      have hxy : x = y := by
        have h1 := h x
        have h2 := h y
        rcases Nat.lt_trichotomy x y with hlt | heq | hlt
        · rw [Memory.read_cons, Memory.read_cons, if_pos rfl, if_neg (by omega),
            Memory.read_below hy (by simp; omega)] at h1
          simp at h1
        · exact heq
        · rw [Memory.read_cons, Memory.read_cons, if_neg (by omega), if_pos rfl,
            Memory.read_below hx (by simp; omega)] at h2
          simp at h2
      subst hxy
      have hb : b = e := by simpa [Memory.read_cons] using h x
      subst hb
      congr 1
      refine ih ht hu fun a => ?_
      have ha := h a
      simp only [Memory.read_cons] at ha
      by_cases hax : a = x
      · rw [hax, Memory.read_below hx (Nat.le_refl _), Memory.read_below hy (Nat.le_refl _)]
      · simpa [hax] using ha

/-- A DST byte outside the range a failure leaves unspecified keeps its free value. -/
theorem junkByte_cons_filter {junk : List (Nat × Nat)} {n d a : Nat} (h : n ≤ a) :
    junkByte ((n, d) :: junk.filter (fun e => decide (n < e.1))) a = junkByte junk a := by
  have key : (junk.filter (fun e => decide (n < e.1))).find? (fun e => decide (a < e.1)) =
      junk.find? (fun e => decide (a < e.1)) := by
    rw [List.find?_filter]
    congr 1
    funext e
    by_cases h2 : a < e.1
    · simp [h2]; omega
    · simp [h2]
  have h1 : ¬ a < n := by omega
  simp [junkByte, h1, key]

end Sys2Proof.Machine
end

