-- ==== Sys2Proof/Laws/Loop.lean ====
section
/-! SUPPORT. The laws of the stages' loops: their invariant rule, nested loops as one loop, and what a loop
that writes one block of bytes an iteration leaves in the output. -/

namespace Sys2Proof.Machine

@[simp] theorem forBelow_zero {α : Type} (body : Nat → α → α) (x : α) : forBelow 0 body x = x := rfl

theorem forBelow_succ {α : Type} (n : Nat) (body : Nat → α → α) (x : α) :
    forBelow (n + 1) body x = body n (forBelow n body x) := rfl

/-- The invariant rule. -/
theorem forBelow_induct {α : Type} {body : Nat → α → α} (P : Nat → α → Prop) {x : α} (h0 : P 0 x) (n : Nat)
    (hs : ∀ i, i < n → ∀ y, P i y → P (i + 1) (body i y)) : P n (forBelow n body x) := by
  induction n with
  | zero => exact h0
  | succ n ih => exact hs n (Nat.lt_succ_self n) _ (ih fun i hi => hs i (Nat.lt_succ_of_lt hi))

/-- A property that every iteration keeps holds after the loop. -/
theorem forBelow_keeps {α : Type} {body : Nat → α → α} (P : α → Prop) (n : Nat)
    (hs : ∀ i, i < n → ∀ y, P y → P (body i y)) {x : α} (h0 : P x) : P (forBelow n body x) :=
  forBelow_induct (fun _ => P) h0 n hs

theorem forBelow_congr {α : Type} {f g : Nat → α → α} (n : Nat) (h : ∀ i, i < n → f i = g i) (x : α) :
    forBelow n f x = forBelow n g x := by
  induction n with
  | zero => rfl
  | succ n ih =>
    rw [forBelow_succ, forBelow_succ, h n (Nat.lt_succ_self n), ih fun i hi => h i (Nat.lt_succ_of_lt hi)]

theorem forBelow_add {α : Type} (m n : Nat) (body : Nat → α → α) (x : α) :
    forBelow (m + n) body x = forBelow n (fun i => body (m + i)) (forBelow m body x) := by
  induction n with
  | zero => rfl
  | succ n ih => rw [← Nat.add_assoc, forBelow_succ, ih, forBelow_succ]

/-- Rows of columns as one loop in row-major order. -/
theorem forBelow_nested {α : Type} (h w : Nat) (f : Nat → Nat → α → α) (x : α) :
    forBelow h (fun r => forBelow w (f r)) x = forBelow (h * w) (fun g => f (g / w) (g % w)) x := by
  induction h with
  | zero => simp
  | succ h ih =>
    rw [forBelow_succ, ih, Nat.succ_mul, forBelow_add]
    refine (forBelow_congr w (fun i hi => ?_) _).symm
    rw [Nat.mul_comm h w, Nat.mul_add_div (by omega), Nat.div_eq_of_lt hi, Nat.mul_add_mod, Nat.mod_eq_of_lt hi,
      Nat.add_zero]

/-- A loop whose iteration `i` writes the block `c*i .. c*i+c-1` with the bytes `val` writes `val` to the
whole range and nothing else. -/
theorem forBelow_blocks {c n : Nat} {body : Nat → Pass → Pass} {val : Nat → Byte}
    (hb : ∀ i, i < n → ∀ p a, (body i p).out.read a =
      if c * i ≤ a ∧ a < c * (i + 1) then some (val a) else p.out.read a)
    (p : Pass) (a : Nat) :
    (forBelow n body p).out.read a = if a < c * n then some (val a) else p.out.read a := by
  refine forBelow_induct
    (fun i (q : Pass) => q.out.read a = if a < c * i then some (val a) else p.out.read a) (by simp) n
    fun i hi q hq => ?_
  rw [hb i hi, hq]
  have hm : c * i ≤ c * (i + 1) := Nat.mul_le_mul_left c (Nat.le_succ i)
  by_cases h1 : c * i ≤ a ∧ a < c * (i + 1)
  · rw [if_pos h1, if_pos h1.2]
  · rw [if_neg h1]
    by_cases h2 : a < c * i
    · rw [if_pos h2, if_pos (by omega)]
    · rw [if_neg h2, if_neg (by omega)]

/-! ### The operations of a stage -/

/-- The channel of a pixel at its byte offset in RGB order (20_memory.md R59). -/
def chan (px : Pixel) (j : Nat) : Byte := if j = 0 then px.r else if j = 1 then px.g else px.b

@[simp] theorem chan_zero (px : Pixel) : chan px 0 = px.r := rfl
@[simp] theorem chan_one (px : Pixel) : chan px 1 = px.g := rfl
@[simp] theorem chan_two (px : Pixel) : chan px 2 = px.b := rfl

@[simp] theorem Pass.seqAt_out (p : Pass) (r c : Nat) : (p.seqAt r c).out = p.out := rfl
@[simp] theorem Pass.sourceAt_out (p : Pass) (a : Nat) : (p.sourceAt a).out = p.out := rfl
@[simp] theorem Pass.destAt_out (p : Pass) (a : Nat) : (p.destAt a).out = p.out := rfl
@[simp] theorem Pass.planesAt_out (p : Pass) (a b c : Nat) : (p.planesAt a b c).out = p.out := rfl
@[simp] theorem Pass.sample_out (p : Pass) (a b c d : Byte) : (p.sample a b c d).out = p.out := rfl
@[simp] theorem Pass.holdByte_out (p : Pass) (o : Order) (j : Nat) (b : Byte) : (p.holdByte o j b).out = p.out := rfl
@[simp] theorem Pass.holdPixel_out (p : Pass) (o : Order) (f : Nat → Byte) (q : Nat) : (p.holdPixel o f q).out = p.out := rfl
@[simp] theorem swapHold_out (d : Option Order) (f : Nat → Byte) (q : Nat) (p : Pass) : (swapHold d f q p).out = p.out := by
  cases d <;> rfl
@[simp] theorem Pass.seqAt_px (p : Pass) (r c : Nat) : (p.seqAt r c).work.px = p.work.px := rfl
@[simp] theorem Pass.sourceAt_px (p : Pass) (a : Nat) : (p.sourceAt a).work.px = p.work.px := rfl
@[simp] theorem Pass.destAt_px (p : Pass) (a : Nat) : (p.destAt a).work.px = p.work.px := rfl
@[simp] theorem Pass.store_out (p : Pass) (a : Nat) (b : Byte) : (p.store a b).out = p.out.write a b := rfl
@[simp] theorem Pass.store_work (p : Pass) (a : Nat) (b : Byte) : (p.store a b).work = p.work := rfl
@[simp] theorem Pass.emit_work (p : Pass) (a : Nat) (px : Pixel) : (p.emit a px).work = { p.work with px := px } := rfl

/-- Pixel `q` of the bytes `f` in an order (20_memory.md R59). -/
def pixelIn (o : Order) (f : Nat → Byte) (q : Nat) : Pixel :=
  match o with
  | .rgb => ⟨f (3 * q), f (3 * q + 1), f (3 * q + 2)⟩
  | .bgr => ⟨f (3 * q + 2), f (3 * q + 1), f (3 * q)⟩

theorem pixelAt_eq (s : State) (sp : Space) (o : Order) (q : Nat) : s.pixelAt sp o q = pixelIn o (s.byteAt sp) q := by
  cases o <;> rfl

/-- Three bytes written to R, G, B are the pixel, whatever the registers held. -/
theorem Pixel.setByte_three (px : Pixel) (o : Order) (f : Nat → Byte) (q : Nat) :
    ((px.setByte o 0 (f (3 * q))).setByte o 1 (f (3 * q + 1))).setByte o 2 (f (3 * q + 2)) = pixelIn o f q := by
  cases o <;> rfl

theorem Pass.holdPixel_work (p : Pass) (o : Order) (f : Nat → Byte) (q : Nat) :
    (p.holdPixel o f q).work = { p.work with px := pixelIn o f q } :=
  congrArg (fun px => { p.work with px := px }) (Pixel.setByte_three p.work.px o f q)

/-- A read after a pixel is stored. -/
theorem Pass.read_emit (p : Pass) (a : Nat) (px : Pixel) (x : Nat) :
    (p.emit a px).out.read x = if a ≤ x ∧ x < a + 3 then some (chan px (x - a)) else p.out.read x := by
  simp only [Pass.emit, Memory.read_write]
  by_cases h : a ≤ x ∧ x < a + 3
  · rw [if_pos h]
    obtain h1 | h1 | h1 : x = a ∨ x = a + 1 ∨ x = a + 2 := by omega
    all_goals subst h1; simp
  · rw [if_neg h, if_neg (by omega), if_neg (by omega), if_neg (by omega)]

theorem Pass.wf_store {p : Pass} (h : p.out.wf) (a : Nat) (b : Byte) : (p.store a b).out.wf :=
  Memory.wf_write h a b

theorem Pass.wf_emit {p : Pass} (h : p.out.wf) (a : Nat) (px : Pixel) : (p.emit a px).out.wf :=
  Memory.wf_write (Memory.wf_write (Memory.wf_write h _ _) _ _) _ _

end Sys2Proof.Machine
end

