-- ==== Sys2Proof/Laws/Stages.lean ====
section
/-! SUPPORT. What each stage does, once: every byte of its output, the working registers it leaves alone,
and that it keeps the canonical form. -/

namespace Sys2Proof.Machine

/-! ### COPY and SWAP (41_direct_swap.md R131, R132) -/

theorem copyLoop_read (o : Order) (w n : Nat) (inp : Nat → Byte) (p : Pass) (a : Nat) :
    (copyLoop o w n inp p).out.read a = if a < 3 * n then some (inp a) else p.out.read a := by
  have h := forBelow_blocks (c := 1) (n := 3 * n) (val := inp)
    (body := fun i p => ((((p.holdByte o (i % 3) (inp i)).seqAt (i / 3 / w) (i / 3 % w)).sourceAt i).destAt i).store i (inp i))
    (fun i _ p a => by
      simp only [Pass.store_out, Memory.read_write, Pass.destAt_out, Pass.sourceAt_out, Pass.seqAt_out,
        Pass.holdByte_out]
      by_cases h : a = i
      · subst h; simp
      · rw [if_neg h, if_neg (by omega)]) p a
  simpa [copyLoop] using h

/-- The byte SWAP writes at an offset. -/
theorem swapLoop_read (d : Option Order) (w n : Nat) (inp : Nat → Byte) (p : Pass) (a : Nat) :
    (swapLoop d w n inp p).out.read a =
      if a < 3 * n then some (inp (3 * (a / 3) + (2 - a % 3))) else p.out.read a := by
  refine forBelow_blocks (c := 3) (val := fun a => inp (3 * (a / 3) + (2 - a % 3))) (fun i _ p a => ?_) p a
  simp only [Pass.store_out, Memory.read_write, Pass.destAt_out, Pass.sourceAt_out, Pass.seqAt_out,
    swapHold_out]
  by_cases h : 3 * i ≤ a ∧ a < 3 * (i + 1)
  · rw [if_pos h]
    obtain h1 | h1 | h1 : a = 3 * i ∨ a = 3 * i + 1 ∨ a = 3 * i + 2 := by omega
    · subst h1
      rw [if_neg (by omega), if_neg (by omega), if_pos rfl]
      congr 2; omega
    · subst h1
      rw [if_neg (by omega), if_pos rfl]
      congr 2; omega
    · subst h1
      rw [if_pos rfl]
      congr 2; omega
  · rw [if_neg h, if_neg (by omega), if_neg (by omega), if_neg (by omega)]

/-! ### RGB565 (42_rgb565.md R141) -/

theorem rgb565Loop_read (u : Unpack565) (w h : Nat) (inp : Nat → Byte) (p : Pass) (a : Nat) :
    (rgb565Loop u w h inp p).out.read a =
      if a < 3 * (w * h) then some (chan (unpack565 u (rgb565Word inp (a / 3))) (a % 3)) else p.out.read a := by
  rw [rgb565Loop, forBelow_nested, Nat.mul_comm w h]
  refine forBelow_blocks (c := 3) (val := fun a => chan (unpack565 u (rgb565Word inp (a / 3))) (a % 3))
    (fun i _ p a => ?_) p a
  have hi : i / w * w + i % w = i := by rw [Nat.mul_comm]; exact Nat.div_add_mod i w
  simp only [rgb565Pixel, hi, Pass.read_emit]
  by_cases h : 3 * i ≤ a ∧ a < 3 * (i + 1)
  · have h1 : a / 3 = i := by omega
    have h2 : a % 3 = a - 3 * i := by omega
    rw [if_pos (by omega), if_pos h, h1, h2]
  · rw [if_neg (by omega), if_neg h]; rfl

/-! ### The pixel pair -/

/-- A read after a pair of pixels is stored. -/
theorem emitPair_read (a : Nat) (p : Pass) (x : Nat) :
    (emitPair a p).out.read x =
      if a ≤ x ∧ x < a + 6 then
        some (chan (pixel (if x < a + 3 then p.work.y0 else p.work.y1) (chromaTerms p.work.u p.work.v)) ((x - a) % 3))
      else p.out.read x := by
  simp only [emitPair, Pass.read_emit, Pass.emit_work]
  by_cases h1 : a ≤ x ∧ x < a + 6
  · by_cases h2 : x < a + 3
    · rw [if_neg (by omega), if_pos (by omega), if_pos h1, if_pos h2, Nat.mod_eq_of_lt (by omega)]
    · have h3 : (x - a) % 3 = x - (a + 3) := by omega
      rw [if_pos (by omega), if_pos h1, if_neg h2, h3]
  · rw [if_neg (by omega), if_neg (by omega), if_neg h1]

theorem emitPair_work (a : Nat) (p : Pass) :
    (emitPair a p).work = { p.work with
      terms := chromaTerms p.work.u p.work.v, px := pixel p.work.y1 (chromaTerms p.work.u p.work.v) } := rfl

theorem emitPair_wf (a : Nat) {p : Pass} (h : p.out.wf) : (emitPair a p).out.wf :=
  Pass.wf_emit (Pass.wf_emit h _ _) _ _

/-! ### YUV422 (43_packed_yuv422.md R152) -/

/-- The pixel `q` that stage YUV422 makes of its input. -/
def packedPixel (pos : GroupPos) (inp : Nat → Byte) (q : Nat) : Pixel :=
  pixel (inp (4 * (q / 2) + (if q % 2 = 0 then pos.y0 else pos.y1)))
    (chromaTerms (inp (4 * (q / 2) + pos.u)) (inp (4 * (q / 2) + pos.v)))

theorem yuv422Loop_read (pos : GroupPos) (w h : Nat) (inp : Nat → Byte) (p : Pass) (a : Nat) :
    (yuv422Loop pos w h inp p).out.read a =
      if a < 6 * (h * (w / 2)) then some (chan (packedPixel pos inp (a / 3)) (a % 3)) else p.out.read a := by
  rw [yuv422Loop, forBelow_nested]
  refine forBelow_blocks (c := 6) (val := fun a => chan (packedPixel pos inp (a / 3)) (a % 3)) (fun i _ p a => ?_) p a
  have hi : i / (w / 2) * (w / 2) + i % (w / 2) = i := by rw [Nat.mul_comm]; exact Nat.div_add_mod i _
  simp only [yuv422Group, hi, emitPair_read]
  by_cases h : 6 * i ≤ a ∧ a < 6 * (i + 1)
  · have h1 : a / 3 / 2 = i := by omega
    have h2 : (a - 6 * i) % 3 = a % 3 := by omega
    rw [if_pos (by omega), if_pos h, h2]
    simp only [packedPixel, h1, Pass.sample]
    by_cases h3 : a < 6 * i + 3
    · rw [if_pos h3, if_pos (by omega)]
    · rw [if_neg h3, if_neg (by omega)]
  · rw [if_neg (by omega), if_neg h]; rfl

/-! ### PLANAR (44_planar_yuv420.md R172) -/

/-- The pixel at row `r` and column `k` that stage PLANAR makes of its input. -/
def planarPixel (pl : PlaneBases) (inp : Nat → Byte) (w r k : Nat) : Pixel :=
  pixel (inp (r * w + k))
    (chromaTerms (inp (pl.ub + (r / 2 * (w / 2) + k / 2))) (inp (pl.vb + (r / 2 * (w / 2) + k / 2))))

theorem planarLoop_read (pl : PlaneBases) {w : Nat} (hw : w % 2 = 0) (h : Nat) (inp : Nat → Byte) (p : Pass)
    (a : Nat) :
    (planarLoop pl w h inp p).out.read a =
      if a < 3 * (w * h) then some (chan (planarPixel pl inp w (a / 3 / w) (a / 3 % w)) (a % 3))
      else p.out.read a := by
  obtain ⟨m, rfl⟩ : ∃ m, w = 2 * m := ⟨w / 2, by omega⟩
  have hm : 2 * m / 2 = m := by omega
  have hsz : 3 * (2 * m * h) = 6 * (h * m) := by
    rw [Nat.mul_comm h m, Nat.mul_assoc 2 m h]; omega
  rw [planarLoop, forBelow_nested, hm, hsz]
  refine forBelow_blocks (c := 6)
    (val := fun a => chan (planarPixel pl inp (2 * m) (a / 3 / (2 * m)) (a / 3 % (2 * m))) (a % 3))
    (fun i hi p a => ?_) p a
  have hmpos : 0 < m := by
    rcases Nat.eq_zero_or_pos m with rfl | h
    · simp at hi
    · exact h
  have hq : i / m * (2 * m) + 2 * (i % m) = 2 * i := by
    have h1 := Nat.div_add_mod i m
    have h2 : i / m * (2 * m) = 2 * (m * (i / m)) := by ring
    omega
  have hq' : 3 * (2 * i) = 6 * i := by omega
  simp only [planarPair, hq, hq', hm, emitPair_read, Pass.sample]
  by_cases h : 6 * i ≤ a ∧ a < 6 * (i + 1)
  · have h2 : (a - 6 * i) % 3 = a % 3 := by omega
    rw [if_pos (by omega), if_pos h, h2]
    have hmod : i % m < m := Nat.mod_lt _ hmpos
    have hrow : ∀ j, j < 2 → (2 * i + j) / (2 * m) = i / m ∧ (2 * i + j) % (2 * m) = 2 * (i % m) + j := by
      intro j hj
      have h3 : 2 * i + j = 2 * m * (i / m) + (2 * (i % m) + j) := by
        have h4 : 2 * m * (i / m) = i / m * (2 * m) := Nat.mul_comm _ _
        omega
      rw [h3]
      constructor
      · have h5 : (2 * (i % m) + j) / (2 * m) = 0 := Nat.div_eq_of_lt (by omega)
        rw [Nat.mul_add_div (by omega), h5, Nat.add_zero]
      · rw [Nat.mul_add_mod, Nat.mod_eq_of_lt (by omega)]
    by_cases h3 : a < 6 * i + 3
    · have h4 : a / 3 = 2 * i + 0 := by omega
      obtain ⟨h5, h6⟩ := hrow 0 (by omega)
      have h7 : i / m * (2 * m) + (2 * (i % m) + 0) = 2 * i := by omega
      have h8 : (2 * (i % m) + 0) / 2 = i % m := by omega
      simp only [planarPixel, h4, h5, h6, h7, h8, hm, if_pos h3]
    · have h4 : a / 3 = 2 * i + 1 := by omega
      obtain ⟨h5, h6⟩ := hrow 1 (by omega)
      have h7 : i / m * (2 * m) + (2 * (i % m) + 1) = 2 * i + 1 := by omega
      have h8 : (2 * (i % m) + 1) / 2 = i % m := by omega
      simp only [planarPixel, h4, h5, h6, h7, h8, hm, if_neg h3]
  · rw [if_neg (by omega), if_neg h]; rfl

/-! ### UNPACK (45_vendor_two_stage.md R193, R198) -/

/-- The byte of the planar intermediate at an offset. -/
def unpackByte (ln : LineOffsets) (inp : Nat → Byte) (w h a : Nat) : Byte :=
  if a < w * h then
    rebias (inp (3 * w * (a / w / 2) + (if a / w % 2 = 0 then ln.y0 else ln.y1) + a % w))
  else if a < 5 * (w * h) / 4 then
    rebias (inp (3 * w * ((a - w * h) / (w / 2)) + ln.u + (a - w * h) % (w / 2)))
  else
    rebias (inp (3 * w * ((a - 5 * (w * h) / 4) / (w / 2)) + ln.v + (a - 5 * (w * h) / 4) % (w / 2)))

/-- Position `k` of line `l` among lines of `w`. -/
theorem line_position {w l k : Nat} (hk : k < w) : (l * w + k) / w = l ∧ (l * w + k) % w = k := by
  rw [Nat.mul_comm l w]
  constructor
  · rw [Nat.mul_add_div (by omega), Nat.div_eq_of_lt hk, Nat.add_zero]
  · rw [Nat.mul_add_mod, Nat.mod_eq_of_lt hk]

/-- A loop whose iteration `k` writes `val` at `x + k` and at `y + k`. -/
theorem forBelow_twoLines {n x y : Nat} {body : Nat → Pass → Pass} {val : Nat → Byte}
    (hb : ∀ k, k < n → ∀ p a, (body k p).out.read a =
      if a = x + k ∨ a = y + k then some (val a) else p.out.read a) (p : Pass) (a : Nat) :
    (forBelow n body p).out.read a =
      if (x ≤ a ∧ a < x + n) ∨ (y ≤ a ∧ a < y + n) then some (val a) else p.out.read a := by
  refine forBelow_induct
    (fun k (q : Pass) => q.out.read a =
      if (x ≤ a ∧ a < x + k) ∨ (y ≤ a ∧ a < y + k) then some (val a) else p.out.read a)
    (by rw [if_neg (by omega)]) n fun k hk q hq => ?_
  rw [hb k hk, hq]
  by_cases h1 : a = x + k ∨ a = y + k
  · rw [if_pos h1, if_pos (by omega)]
  · rw [if_neg h1]
    by_cases h2 : (x ≤ a ∧ a < x + k) ∨ (y ≤ a ∧ a < y + k)
    · rw [if_pos h2, if_pos (by omega)]
    · rw [if_neg h2, if_neg (by omega)]

/-- UNPACK writes the whole intermediate `0 .. 3*W*H/2 - 1` and nothing else. -/
theorem unpackLoop_read (ln : LineOffsets) {w h : Nat} (hw : w % 2 = 0) (hh : h % 2 = 0) (inp : Nat → Byte)
    (p : Pass) (a : Nat) :
    (unpackLoop ln w h inp p).out.read a =
      if a < 3 * (w * h) / 2 then some (unpackByte ln inp w h a) else p.out.read a := by
  obtain ⟨m, rfl⟩ : ∃ m, w = 2 * m := ⟨w / 2, by omega⟩
  obtain ⟨n, rfl⟩ : ∃ n, h = 2 * n := ⟨h / 2, by omega⟩
  have hm : 2 * m / 2 = m := by omega
  have hn : 2 * n / 2 = n := by omega
  have hN : 2 * m * (2 * n) = 4 * (n * m) := by ring
  have h5 : 5 * (4 * (n * m)) / 4 = 5 * (n * m) := by omega
  have key := forBelow_induct
    (fun g (q : Pass) => q.out.read a =
      if a < 4 * (g * m) ∨ (4 * (n * m) ≤ a ∧ a < 4 * (n * m) + g * m) ∨
          (5 * (n * m) ≤ a ∧ a < 5 * (n * m) + g * m)
      then some (unpackByte ln inp (2 * m) (2 * n) a) else p.out.read a)
    (x := p) (body := fun g p =>
      forBelow m (unpackChroma ln inp (2 * m) (2 * n) g) (forBelow (2 * m) (unpackLuma ln inp (2 * m) g) p))
    (by rw [if_neg (by omega)]) n fun g hg q hq => by
      have hgm : (g + 1) * m = g * m + m := Nat.succ_mul g m
      have hle : (g + 1) * m ≤ n * m := Nat.mul_le_mul_right m hg
      have hA : 2 * g * (2 * m) = 4 * (g * m) := by ring
      have hB : (2 * g + 1) * (2 * m) = 4 * (g * m) + 2 * m := by ring
      rw [forBelow_twoLines (x := 4 * (n * m) + g * m) (y := 5 * (n * m) + g * m)
          (val := unpackByte ln inp (2 * m) (2 * n)),
        forBelow_twoLines (x := 4 * (g * m)) (y := 4 * (g * m) + 2 * m)
          (val := unpackByte ln inp (2 * m) (2 * n)), hq, hgm]
      · by_cases h1 : (4 * (n * m) + g * m ≤ a ∧ a < 4 * (n * m) + g * m + m) ∨
            (5 * (n * m) + g * m ≤ a ∧ a < 5 * (n * m) + g * m + m)
        · rw [if_pos h1, if_pos (by omega)]
        · rw [if_neg h1]
          by_cases h2 : (4 * (g * m) ≤ a ∧ a < 4 * (g * m) + 2 * m) ∨
              (4 * (g * m) + 2 * m ≤ a ∧ a < 4 * (g * m) + 2 * m + 2 * m)
          · rw [if_pos h2, if_pos (by omega)]
          · rw [if_neg h2]
            by_cases h3 : a < 4 * (g * m) ∨ (4 * (n * m) ≤ a ∧ a < 4 * (n * m) + g * m) ∨
                (5 * (n * m) ≤ a ∧ a < 5 * (n * m) + g * m)
            · rw [if_pos h3, if_pos (by omega)]
            · rw [if_neg h3, if_neg (by omega)]
      · intro k hk r b
        simp only [unpackLuma, Pass.store_out, Pass.seqAt_out, Memory.read_write, hA, hB]
        by_cases h1 : b = 4 * (g * m) + k
        · rw [if_neg (by omega), if_pos h1, if_pos (.inl h1)]
          obtain ⟨e1, e2⟩ := line_position (l := 2 * g) hk
          have e3 : b = 2 * g * (2 * m) + k := by omega
          have e4 : 2 * g / 2 = g := by omega
          rw [unpackByte, hN, if_pos (by omega), e3, e1, e2, e4, if_pos (by omega)]
        · rw [if_neg h1]
          by_cases h2 : b = 4 * (g * m) + 2 * m + k
          · rw [if_pos h2, if_pos (.inr h2)]
            obtain ⟨e1, e2⟩ := line_position (l := 2 * g + 1) hk
            have e3 : b = (2 * g + 1) * (2 * m) + k := by omega
            have e4 : (2 * g + 1) / 2 = g := by omega
            rw [unpackByte, hN, if_pos (by omega), e3, e1, e2, e4, if_neg (by omega)]
          · rw [if_neg h2, if_neg (by omega)]
      · intro k hk r b
        obtain ⟨e1, e2⟩ := line_position (l := g) hk
        simp only [unpackChroma, Pass.store_out, Pass.seqAt_out, Memory.read_write, hN, hm, h5]
        by_cases h1 : b = 5 * (n * m) + g * m + k
        · rw [if_pos h1, if_pos (.inr h1)]
          have e3 : b - 5 * (n * m) = g * m + k := by omega
          rw [unpackByte, hN, h5, hm, if_neg (by omega), if_neg (by omega), e3, e1, e2]
        · rw [if_neg h1]
          by_cases h2 : b = 4 * (n * m) + g * m + k
          · rw [if_pos h2, if_pos (.inl h2)]
            have e3 : b - 4 * (n * m) = g * m + k := by omega
            rw [unpackByte, hN, h5, hm, if_neg (by omega), if_pos (by omega), e3, e1, e2]
          · rw [if_neg h2, if_neg (by omega)]
  rw [unpackLoop, hn, hm, key, hN]
  by_cases h1 : a < 3 * (4 * (n * m)) / 2
  · rw [if_pos h1, if_pos (by omega)]
  · rw [if_neg h1, if_neg (by omega)]

/-! ### The working registers the stages write -/

theorem copyLoop_work (o : Order) (w n : Nat) (inp : Nat → Byte) (p : Pass) :
    let q := copyLoop o w n inp p
    q.work = { p.work with
      px := q.work.px, row := q.work.row, col := q.work.col, ps := q.work.ps, pd := q.work.pd } :=
  forBelow_keeps (fun (q : Pass) => q.work = { p.work with
      px := q.work.px, row := q.work.row, col := q.work.col, ps := q.work.ps, pd := q.work.pd })
    _ (fun _ _ _ hq => by simp_all [Work.ext_iff, Pass.destAt, Pass.sourceAt, Pass.seqAt, Pass.holdByte]) rfl

/-- SWAP, as the decode stage or after one. -/
theorem swapLoop_work (d : Option Order) (w n : Nat) (inp : Nat → Byte) (p : Pass) :
    let q := swapLoop d w n inp p
    q.work = { p.work with
      px := q.work.px, row := q.work.row, col := q.work.col, ps := q.work.ps, pd := q.work.pd } :=
  forBelow_keeps (fun (q : Pass) => q.work = { p.work with
      px := q.work.px, row := q.work.row, col := q.work.col, ps := q.work.ps, pd := q.work.pd })
    _ (fun _ _ _ hq => by
      cases d <;> simp_all [Work.ext_iff, Pass.destAt, Pass.sourceAt, Pass.seqAt, swapHold, Pass.holdPixel_work]) rfl

/-- SWAP after a decode stage leaves R, G, B alone. -/
theorem swapLoop_px_none (w n : Nat) (inp : Nat → Byte) (p : Pass) : (swapLoop none w n inp p).work.px = p.work.px := by
  unfold swapLoop
  exact forBelow_keeps (fun (q : Pass) => q.work.px = p.work.px) _ (fun _ _ _ hq => by simpa [swapHold] using hq) rfl

theorem rgb565Loop_work (u : Unpack565) (w h : Nat) (inp : Nat → Byte) (p : Pass) :
    let q := rgb565Loop u w h inp p
    q.work = { p.work with
      px := q.work.px, tmp16 := q.work.tmp16, row := q.work.row, col := q.work.col, ps := q.work.ps, pd := q.work.pd } := by
  rw [rgb565Loop, forBelow_nested]
  exact forBelow_keeps (fun (q : Pass) => q.work = { p.work with
      px := q.work.px, tmp16 := q.work.tmp16, row := q.work.row, col := q.work.col, ps := q.work.ps, pd := q.work.pd })
    _ (fun _ _ _ hq => by simp_all [Work.ext_iff, rgb565Pixel, Pass.sourceAt, Pass.destAt, Pass.seqAt]) rfl

theorem yuv422Loop_work (pos : GroupPos) (w h : Nat) (inp : Nat → Byte) (p : Pass) :
    let q := yuv422Loop pos w h inp p
    q.work = { p.work with
      y0 := q.work.y0, y1 := q.work.y1, u := q.work.u, v := q.work.v, terms := q.work.terms, px := q.work.px, row := q.work.row, col := q.work.col, ps := q.work.ps, pd := q.work.pd } := by
  rw [yuv422Loop, forBelow_nested]
  exact forBelow_keeps (fun (q : Pass) => q.work = { p.work with
      y0 := q.work.y0, y1 := q.work.y1, u := q.work.u, v := q.work.v, terms := q.work.terms, px := q.work.px, row := q.work.row, col := q.work.col, ps := q.work.ps, pd := q.work.pd })
    _ (fun _ _ _ hq => by simp_all [Work.ext_iff, yuv422Group, emitPair_work, Pass.sample, Pass.sourceAt, Pass.destAt, Pass.seqAt]) rfl

theorem planarLoop_work (pl : PlaneBases) (w h : Nat) (inp : Nat → Byte) (p : Pass) :
    let q := planarLoop pl w h inp p
    q.work = { p.work with
      y0 := q.work.y0, y1 := q.work.y1, u := q.work.u, v := q.work.v, terms := q.work.terms, px := q.work.px, row := q.work.row, col := q.work.col, py := q.work.py, pu := q.work.pu, pv := q.work.pv, pd := q.work.pd } := by
  rw [planarLoop, forBelow_nested]
  exact forBelow_keeps (fun (q : Pass) => q.work = { p.work with
      y0 := q.work.y0, y1 := q.work.y1, u := q.work.u, v := q.work.v, terms := q.work.terms, px := q.work.px, row := q.work.row, col := q.work.col, py := q.work.py, pu := q.work.pu, pv := q.work.pv, pd := q.work.pd })
    _ (fun _ _ _ hq => by simp_all [Work.ext_iff, planarPair, emitPair_work, Pass.sample, Pass.planesAt, Pass.destAt, Pass.seqAt]) rfl

theorem unpackLoop_work (ln : LineOffsets) (w h : Nat) (inp : Nat → Byte) (p : Pass) :
    let q := unpackLoop ln w h inp p
    q.work = { p.work with row := q.work.row, col := q.work.col } :=
  forBelow_keeps (fun (q : Pass) => q.work = { p.work with row := q.work.row, col := q.work.col }) _
    (fun _ _ _ hr =>
      forBelow_keeps (fun (q : Pass) => q.work = { p.work with row := q.work.row, col := q.work.col }) _
        (fun _ _ _ hq => by simp_all [Work.ext_iff, unpackChroma, Pass.seqAt])
        (forBelow_keeps (fun (q : Pass) => q.work = { p.work with row := q.work.row, col := q.work.col }) _
          (fun _ _ _ hq => by simp_all [Work.ext_iff, unpackLuma, Pass.seqAt]) hr)) rfl

/-! ### The pixel R, G, B hold after a decode stage: the last one (10_state.md R30) -/

theorem copyLoop_px (o : Order) (w : Nat) {n : Nat} (hn : 0 < n) (inp : Nat → Byte) (p : Pass) :
    (copyLoop o w n inp p).work.px = pixelIn o inp (n - 1) := by
  obtain ⟨m, rfl⟩ : ∃ m, n = m + 1 := ⟨n - 1, by omega⟩
  have h0 : 3 * m % 3 = 0 := by omega
  have h1 : (3 * m + 1) % 3 = 1 := by omega
  have h2 : (3 * m + 2) % 3 = 2 := by omega
  rw [copyLoop, show 3 * (m + 1) = 3 * m + 2 + 1 by omega, forBelow_succ, forBelow_succ, forBelow_succ]
  simp only [Pass.store_work, Pass.destAt_px, Pass.sourceAt_px, Pass.seqAt_px, Pass.holdByte, h0, h1, h2,
    Nat.add_sub_cancel]
  exact Pixel.setByte_three _ o inp m

theorem swapLoop_px_some (o : Order) (w : Nat) {n : Nat} (hn : 0 < n) (inp : Nat → Byte) (p : Pass) :
    (swapLoop (some o) w n inp p).work.px = pixelIn o inp (n - 1) := by
  obtain ⟨m, rfl⟩ : ∃ m, n = m + 1 := ⟨n - 1, by omega⟩
  rw [swapLoop, forBelow_succ]
  simp only [Pass.store_work, Pass.destAt_px, Pass.sourceAt_px, Pass.seqAt_px, swapHold, Pass.holdPixel_work,
    Nat.add_sub_cancel]

/-- The last position of `h` rows of `w`. -/
theorem last_position {w h : Nat} (hw : 0 < w) (hh : 0 < h) :
    h * w - 1 = (h - 1) * w + (w - 1) ∧ (h * w - 1) / w = h - 1 ∧ (h * w - 1) % w = w - 1 := by
  obtain ⟨m, rfl⟩ : ∃ m, h = m + 1 := ⟨h - 1, by omega⟩
  have e : (m + 1) * w - 1 = m * w + (w - 1) := by rw [Nat.succ_mul]; omega
  rw [e, Nat.add_sub_cancel]
  exact ⟨rfl, line_position (by omega)⟩

/-- Rows of columns end with the last column of the last row. -/
theorem forBelow_last {α : Type} {w h : Nat} (hw : 0 < w) (hh : 0 < h) (f : Nat → Nat → α → α) (x : α) :
    ∃ y, forBelow h (fun r => forBelow w (f r)) x = f (h - 1) (w - 1) y := by
  obtain ⟨m, rfl⟩ : ∃ m, h = m + 1 := ⟨h - 1, by omega⟩
  obtain ⟨n, rfl⟩ : ∃ n, w = n + 1 := ⟨w - 1, by omega⟩
  exact ⟨_, by rw [forBelow_succ, forBelow_succ]; rfl⟩

theorem rgb565Loop_px (u : Unpack565) {w h : Nat} (hw : 0 < w) (hh : 0 < h) (inp : Nat → Byte) (p : Pass) :
    (rgb565Loop u w h inp p).work.px = unpack565 u (rgb565Word inp (h * w - 1)) := by
  obtain ⟨y, hy⟩ := forBelow_last hw hh (fun r k => rgb565Pixel u inp w r k) p
  rw [rgb565Loop, hy, (last_position hw hh).1]; rfl

theorem yuv422Loop_px (pos : GroupPos) {w h : Nat} (he : w % 2 = 0) (hw : 0 < w) (hh : 0 < h) (inp : Nat → Byte) (p : Pass) :
    (yuv422Loop pos w h inp p).work.px = packedPixel pos inp (h * w - 1) := by
  obtain ⟨m, rfl⟩ : ∃ m, w = 2 * m := ⟨w / 2, by omega⟩
  have hm : 2 * m / 2 = m := by omega
  obtain ⟨y, hy⟩ := forBelow_last (w := m) (by omega) hh (fun r k => yuv422Group pos inp (2 * m) r k) p
  have h1 := (last_position (w := m) (by omega) hh).1
  have hN : h * (2 * m) = 2 * (h * m) := by ring
  have hpos : 0 < h * m := Nat.mul_pos hh (by omega)
  have hd : (h * (2 * m) - 1) / 2 = h * m - 1 := by omega
  have hr : (h * (2 * m) - 1) % 2 = 1 := by omega
  rw [yuv422Loop, hm, hy]
  simp only [yuv422Group, emitPair_work, Pass.sample, packedPixel, hd, hr, hm, ← h1, one_ne_zero, if_false]

theorem planarLoop_px (pl : PlaneBases) {w h : Nat} (he : w % 2 = 0) (hw : 0 < w) (hh : 0 < h) (inp : Nat → Byte) (p : Pass) :
    (planarLoop pl w h inp p).work.px = planarPixel pl inp w (h - 1) (w - 1) := by
  obtain ⟨m, rfl⟩ : ∃ m, w = 2 * m := ⟨w / 2, by omega⟩
  have hm : 2 * m / 2 = m := by omega
  obtain ⟨y, hy⟩ := forBelow_last (w := m) (by omega) hh (fun r k => planarPair pl inp (2 * m) r k) p
  have h1 : (2 * m - 1) / 2 = m - 1 := by omega
  have h2 : (h - 1) * (2 * m) + 2 * (m - 1) + 1 = (h - 1) * (2 * m) + (2 * m - 1) := by omega
  rw [planarLoop, hm, hy]
  simp only [planarPair, emitPair_work, Pass.sample, planarPixel, h1, h2, hm]

theorem planarLoop_last (pl : PlaneBases) {w h : Nat} (he : w % 2 = 0) (hw : 0 < w) (hh : 0 < h) (inp : Nat → Byte) (p : Pass) :
    (planarLoop pl w h inp p).work.px = planarPixel pl inp w ((w * h - 1) / w) ((w * h - 1) % w) := by
  obtain ⟨-, h1, h2⟩ := last_position hw hh
  rw [planarLoop_px pl he hw hh, Nat.mul_comm, h1, h2]

/-! ### The canonical form is kept -/

theorem copyLoop_wf (o : Order) (w n : Nat) (inp : Nat → Byte) {p : Pass} (h : p.out.wf) : (copyLoop o w n inp p).out.wf :=
  forBelow_keeps (fun (q : Pass) => q.out.wf) _ (fun _ _ _ hq => Memory.wf_write hq _ _) h

theorem swapLoop_wf (d : Option Order) (w n : Nat) (inp : Nat → Byte) {p : Pass} (h : p.out.wf) :
    (swapLoop d w n inp p).out.wf :=
  forBelow_keeps (fun (q : Pass) => q.out.wf) _
    (fun _ _ q hq => by
      simp only [Pass.store_out, Pass.destAt_out, Pass.sourceAt_out, Pass.seqAt_out, swapHold_out]
      exact Memory.wf_write (Memory.wf_write (Memory.wf_write hq _ _) _ _) _ _) h

theorem rgb565Loop_wf (u : Unpack565) (w h : Nat) (inp : Nat → Byte) {p : Pass} (hp : p.out.wf) :
    (rgb565Loop u w h inp p).out.wf := by
  rw [rgb565Loop, forBelow_nested]
  exact forBelow_keeps (fun (q : Pass) => q.out.wf) _ (fun _ _ _ hq => by unfold rgb565Pixel; exact Pass.wf_emit hq _ _) hp

theorem yuv422Loop_wf (pos : GroupPos) (w h : Nat) (inp : Nat → Byte) {p : Pass} (hp : p.out.wf) :
    (yuv422Loop pos w h inp p).out.wf := by
  rw [yuv422Loop, forBelow_nested]
  exact forBelow_keeps (fun (q : Pass) => q.out.wf) _ (fun _ _ _ hq => by unfold yuv422Group; exact emitPair_wf _ hq) hp

theorem planarLoop_wf (pl : PlaneBases) (w h : Nat) (inp : Nat → Byte) {p : Pass} (hp : p.out.wf) :
    (planarLoop pl w h inp p).out.wf := by
  rw [planarLoop, forBelow_nested]
  exact forBelow_keeps (fun (q : Pass) => q.out.wf) _ (fun _ _ _ hq => by unfold planarPair; exact emitPair_wf _ hq) hp

theorem unpackLoop_wf (ln : LineOffsets) (w h : Nat) (inp : Nat → Byte) {p : Pass} (hp : p.out.wf) :
    (unpackLoop ln w h inp p).out.wf :=
  forBelow_keeps (fun (q : Pass) => q.out.wf) _ (fun _ _ _ hr =>
    forBelow_keeps (fun (q : Pass) => q.out.wf) _ (fun _ _ _ hq => Memory.wf_write (Memory.wf_write hq _ _) _ _)
      (forBelow_keeps (fun (q : Pass) => q.out.wf) _
        (fun _ _ _ hq => Memory.wf_write (Memory.wf_write hq _ _) _ _) hr)) hp

end Sys2Proof.Machine
end

