-- ==== Sys2Proof/Laws/Commands.lean ====
section
/-! SUPPORT. What the shared parts of a command do, once: the scratch controller, the failure sequence,
the decode-and-swap pipeline, and the checks. -/

namespace Sys2Proof.Machine

/-! ### Bytes of a space after a stage -/

theorem byteAt_runStage_dst (s : State) (f : Pass → Pass) (a : Nat) :
    (s.runStage .dst f).byteAt .dst a = ((f ⟨s.work, s.dst⟩).out.read a).getD (junkByte s.dstJunk a) := rfl
theorem byteAt_runStage_scry (s : State) (f : Pass → Pass) (a : Nat) :
    (s.runStage .scry f).byteAt .scry a =
      ((f ⟨s.work, s.scry.mem⟩).out.read a).getD (Config.freshByte s.scry.draw a) := rfl
theorem byteAt_runStage_scrr (s : State) (f : Pass → Pass) (a : Nat) :
    (s.runStage .scrr f).byteAt .scrr a =
      ((f ⟨s.work, s.scrr.mem⟩).out.read a).getD (Config.freshByte s.scrr.draw a) := rfl

/-- A stage changes no byte of another space. -/
theorem byteAt_runStage_other (s : State) (f : Pass → Pass) {out sp : Space} (h : sp ≠ out) :
    (s.runStage out f).byteAt sp = s.byteAt sp := by
  cases out <;> cases sp <;> first | rfl | exact absurd rfl h

/-! ### The scratch controller (46_dispatcher.md R217, R218) -/

theorem fitsCap_iff (s : State) (n : Nat) : fitsCap s.params.scratchCap n = true ↔ s.CapHolds n := by
  unfold State.CapHolds
  cases h : s.params.scratchCap <;> simp [fitsCap]

theorem alloc_granted {b : Buf} {n : Nat} {s : State} (h : s.CapHolds (s.scratchUsed + n)) :
    alloc b n s = some (granted b n s) := by
  rw [alloc, if_pos ((fitsCap_iff _ _).2 h)]

theorem alloc_refused {b : Buf} {n : Nat} {s : State} (h : ¬ s.CapHolds (s.scratchUsed + n)) :
    alloc b n s = none := by
  rw [alloc, if_neg (mt (fitsCap_iff _ _).1 h)]

@[simp] theorem scratchUsed_free {s : State} (h : s.ScratchFree) : s.scratchUsed = 0 := by
  simp [State.scratchUsed, Scratch.held, h.1, h.2]

theorem freeAll_scratchFree (s : State) : (freeAll s).ScratchFree := ⟨rfl, rfl⟩

/-- Freeing a buffer that is not allocated changes nothing. -/
theorem Scratch.free_eq {b : Scratch} (h : b.alloc = false) : { b with alloc := false } = b := by
  cases b; simp_all

/-! ### What is kept -/

theorem Kept.rfl (s : State) : Kept s s := ⟨by rfl, by rfl, by rfl, by rfl, by rfl, by rfl, by rfl, by rfl, by rfl, by rfl, by rfl⟩

theorem Kept.trans {s t u : State} (h : Kept s t) (k : Kept t u) : Kept s u :=
  ⟨k.src.trans h.src, k.format.trans h.format, k.width.trans h.width, k.height.trans h.height,
   k.srcLen.trans h.srcLen, k.dstLen.trans h.dstLen, k.order.trans h.order, k.latch.trans h.latch,
   k.params.trans h.params, k.bus.trans h.bus, k.reply.trans h.reply⟩

/-- The parts of the state a pipeline does not touch: what is kept, ERRMSG and the unspecified DST ranges.
Pipelines build it up stage by stage. -/
structure Untouched (s t : State) : Prop where
  kept    : Kept s t
  errmsg  : t.errmsg = s.errmsg
  dstJunk : t.dstJunk = s.dstJunk

theorem Untouched.rfl (s : State) : Untouched s s := ⟨Kept.rfl s, by rfl, by rfl⟩

theorem Untouched.trans {s t u : State} (h : Untouched s t) (k : Untouched t u) : Untouched s u :=
  ⟨h.kept.trans k.kept, k.errmsg.trans h.errmsg, k.dstJunk.trans h.dstJunk⟩

theorem untouched_enter (s : State) (p : Phase) : Untouched s (s.enter p) := by
  constructor <;> (try constructor) <;> rfl

theorem untouched_runStage (s : State) {out : Space} (h : out ≠ .src) (f : Pass → Pass) :
    Untouched s (s.runStage out f) := by
  cases out
  · exact absurd (by rfl) h
  all_goals constructor <;> (try constructor) <;> rfl

theorem untouched_granted (s : State) (b : Buf) (n : Nat) : Untouched s (granted b n s) := by
  cases b <;> constructor <;> (try constructor) <;> rfl

theorem untouched_free (s : State) (b : Buf) : Untouched s (free b s) := by
  cases b <;> constructor <;> (try constructor) <;> rfl

theorem untouched_freeAll (s : State) : Untouched s (freeAll s) := by
  constructor <;> (try constructor) <;> rfl

/-! ### The end of a command -/

/-- A DST byte outside the range that a failure leaves unspecified. -/
theorem byteAt_spoilDst {n a : Nat} (s : State) (h : n ≤ a) : (spoilDst n s).byteAt .dst a = s.byteAt .dst a := by
  unfold spoilDst
  split
  · rfl
  · simp only [State.byteAt, Memory.read_dropBelow, if_pos h]
    rw [junkByte_cons_filter h]

theorem byteAt_raise {n a : Nat} (k : ErrKind) (s : State) (h : n ≤ a) :
    (raise k n s).byteAt .dst a = s.byteAt .dst a := by
  have h1 : (raise k n s).byteAt .dst a = (spoilDst n s).byteAt .dst a := by
    simp only [State.byteAt, raise_dst, raise_dstJunk]
  rw [h1, byteAt_spoilDst s h]

theorem messageBytes_get (text : List Byte) (i : Fin 32) : (messageBytes text)[i] = text.getD i.val 0 := by
  simp [messageBytes]

theorem raise_idle (k : ErrKind) (n : Nat) (s : State) : (raise k n s).Idle :=
  ⟨by simp [statusFailed], by simp, by simp [State.ScratchFree]⟩

theorem succeed_idle (s : State) : (succeed s).Idle := ⟨rfl, rfl, rfl, rfl⟩

@[simp] theorem conclude_done (n : Nat) (s : State) : conclude n (.done s) = succeed s := rfl
@[simp] theorem conclude_raised (n : Nat) (k : ErrKind) (s : State) : conclude n (.raised k s) = raise k n s := rfl

/-- The failure sequence after a pipeline that wrote no DST byte. -/
theorem failed_raise (k : ErrKind) (c : CmdFields) {s t : State} (h : Untouched s t) (hd : t.dst = s.dst) :
    Failed k c s (raise k c.dstLen.toNat t) where
  kept := h.kept.trans (by constructor <;> simp)
  idle := raise_idle _ _ _
  status := by simp [statusFailed]
  errmsg := fun i => by rw [raise_errmsg, messageBytes_get]
  beyond := fun a ha => by
    rw [byteAt_raise k t ha]
    simp only [State.byteAt, hd, h.dstJunk]

/-! ### The checks (46_dispatcher.md R213, R214) -/

theorem accepted_iff (cls : LayoutClass) (c : CmdFields) : accepted cls c = true ↔ Valid cls c := by
  have he : needsEven cls = true ↔ cls = .packedYuv422 ∨ cls = .planarYuv420 ∨ cls = .vendor := by
    cases cls <;> simp [needsEven]
  simp only [accepted, dimensionsOk, lengthsOk, outSize, Bool.and_eq_true, Bool.not_eq_true', decide_eq_true_eq]
  constructor
  · rintro ⟨⟨⟨h1, h2⟩, h3⟩, h4, h5⟩
    refine ⟨by omega, by omega, fun hc => ?_, h4, of_decide_eq_true h5⟩
    rw [he.2 hc] at h3
    simp at h3
    omega
  · rintro ⟨h1, h2, h3, h4, h5⟩
    refine ⟨⟨⟨by omega, by omega⟩, ?_⟩, h4, decide_eq_true h5⟩
    by_cases hc : needsEven cls = true
    · obtain ⟨h6, h7⟩ := h3 (he.1 hc)
      simp [h6, h7]
    · simp [hc]

theorem runCommand_valid {cls : LayoutClass} {c : CmdFields} (h : Valid cls c) (pipeline : State → Attempt)
    (s : State) : runCommand cls c pipeline s = conclude c.dstLen.toNat (pipeline (s.enter .check)) := by
  rw [runCommand, if_pos ((accepted_iff _ _).2 h)]

theorem runCommand_invalid {cls : LayoutClass} {c : CmdFields} (h : ¬ Valid cls c) (pipeline : State → Attempt)
    (s : State) :
    runCommand cls c pipeline s = raise .invalidArgument c.dstLen.toNat (s.enter .check) := by
  rw [runCommand, if_neg (mt (accepted_iff _ _).1 h)]; rfl

/-! ### The image in DST -/

/-- The byte at position `j` of a pixel stored in an order (20_memory.md R59). -/
def byteOf (o : Order) (px : Pixel) (j : Nat) : Byte :=
  match o with
  | .rgb => chan px j
  | .bgr => chan px (2 - j)

/-- A space whose bytes are those of the pixels `img` shows those pixels. -/
theorem pixelAt_of_bytes {t : State} {sp : Space} {o : Order} {n : Nat} {img : Nat → Pixel}
    (h : ∀ a, a < 3 * n → t.byteAt sp a = byteOf o (img (a / 3)) (a % 3)) {q : Nat} (hq : q < n) :
    t.pixelAt sp o q = img q := by
  have h0 := h (3 * q) (by omega)
  have h1 := h (3 * q + 1) (by omega)
  have h2 := h (3 * q + 2) (by omega)
  have d0 : 3 * q / 3 = q := by omega
  have d1 : (3 * q + 1) / 3 = q := by omega
  have d2 : (3 * q + 2) / 3 = q := by omega
  have m0 : 3 * q % 3 = 0 := by omega
  have m1 : (3 * q + 1) % 3 = 1 := by omega
  have m2 : (3 * q + 2) % 3 = 2 := by omega
  rw [d0, m0] at h0
  rw [d1, m1] at h1
  rw [d2, m2] at h2
  cases o <;> simp [State.pixelAt, h0, h1, h2, byteOf]

/-- What the stages from a decode stage to DST leave: the pixels `img` in the order asked for, the last of them
in R, G, B. -/
structure Decoded (c : CmdFields) (img : Nat → Pixel) (s t : State) : Prop where
  untouched : Untouched s t
  inside : ∀ a, a < 3 * (c.w.toNat * c.h.toNat) → t.byteAt .dst a = byteOf c.order (img (a / 3)) (a % 3)
  beyond : ∀ a, 3 * (c.w.toNat * c.h.toNat) ≤ a → t.byteAt .dst a = s.byteAt .dst a
  scry   : t.scry = s.scry
  scrr   : c.order = .rgb → t.scrr = s.scrr
  sized  : c.order = .bgr → t.scrr.size = 3 * (c.w.toNat * c.h.toNat)
  through : c.order = .bgr → ∀ a, a < 3 * (c.w.toNat * c.h.toNat) → t.byteAt .scrr a = chan (img (a / 3)) (a % 3)
  freed  : s.scrr.alloc = false → t.scrr.alloc = false
  last   : t.work.px = img (c.w.toNat * c.h.toNat - 1)

theorem decodeAndSwap_rgb {c : CmdFields} (ho : c.order = .rgb) (decode : State → Pass → Pass) (s : State) :
    decodeAndSwap c decode s = .done ((s.enter .decode).runStage .dst (decode s)) := by
  simp only [decodeAndSwap, ho]

/-- The state after the BGR pipeline's stages, SCRR granted. -/
def swapped (c : CmdFields) (decode : State → Pass → Pass) (s : State) : State :=
  let s := granted .scrr (outSize c) s
  let s := (s.enter .decode).runStage .scrr (decode s)
  free .scrr ((s.enter .swap).runStage .dst (swapLoop none c.w.toNat (pixelCount c) (s.byteAt .scrr)))

theorem decodeAndSwap_bgr {c : CmdFields} (ho : c.order = .bgr) (decode : State → Pass → Pass) {s : State}
    (h : s.CapHolds (s.scratchUsed + outSize c)) : decodeAndSwap c decode s = .done (swapped c decode s) := by
  simp only [decodeAndSwap, ho, alloc_granted h, swapped]

theorem decodeAndSwap_refused {c : CmdFields} (ho : c.order = .bgr) (decode : State → Pass → Pass) {s : State}
    (h : ¬ s.CapHolds (s.scratchUsed + outSize c)) :
    decodeAndSwap c decode s = .raised .allocationFailure (freeAll s) := by
  simp only [decodeAndSwap, ho, alloc_refused h]

/-- The RGB path: a decode stage that writes the pixels `img` leaves them in DST. -/
theorem decoded_rgb {c : CmdFields} (ho : c.order = .rgb) {decode : State → Pass → Pass} {img : Nat → Pixel}
    {s : State} (hr : ∀ p a, (decode s p).out.read a =
      if a < 3 * (c.w.toNat * c.h.toNat) then some (chan (img (a / 3)) (a % 3)) else p.out.read a)
    (hpx : ∀ p, (decode s p).work.px = img (c.w.toNat * c.h.toNat - 1)) :
    Decoded c img s ((s.enter .decode).runStage .dst (decode s)) where
  untouched := (untouched_enter s _).trans (untouched_runStage _ (by decide) _)
  inside := fun a ha => by rw [byteAt_runStage_dst, hr, if_pos ha, ho]; rfl
  beyond := fun a ha => by rw [byteAt_runStage_dst, hr, if_neg (by omega)]; rfl
  scry := rfl
  scrr := fun _ => rfl
  sized := fun h => by rw [ho] at h; cases h
  through := fun h => by rw [ho] at h; cases h
  freed := fun h => h
  last := hpx _

@[simp] theorem granted_scrr_dst (n : Nat) (s : State) : (granted .scrr n s).dst = s.dst := rfl
@[simp] theorem granted_scrr_scry (n : Nat) (s : State) : (granted .scrr n s).scry = s.scry := rfl
@[simp] theorem granted_scrr_dstJunk (n : Nat) (s : State) : (granted .scrr n s).dstJunk = s.dstJunk := rfl
@[simp] theorem granted_scrr_work (n : Nat) (s : State) : (granted .scrr n s).work = s.work := rfl
@[simp] theorem granted_scry_work (n : Nat) (s : State) : (granted .scry n s).work = s.work := rfl

theorem byteAt_granted_other (s : State) (n : Nat) {b : Buf} {sp : Space}
    (h : (b, sp) ≠ (.scry, .scry) ∧ (b, sp) ≠ (.scrr, .scrr)) : (granted b n s).byteAt sp = s.byteAt sp := by
  cases b <;> cases sp <;> first | rfl | simp at h

/-- A byte of DST after SWAP from SCRR. -/
theorem byteAt_swapped (c : CmdFields) (decode : State → Pass → Pass) (s : State) (a : Nat) :
    (swapped c decode s).byteAt .dst a =
      if a < 3 * (c.w.toNat * c.h.toNat) then
        (((granted .scrr (outSize c) s).enter .decode).runStage .scrr
          (decode (granted .scrr (outSize c) s))).byteAt .scrr (3 * (a / 3) + (2 - a % 3))
      else s.byteAt .dst a := by
  simp only [swapped, byteAt_free]
  rw [byteAt_runStage_dst, swapLoop_read, pixelCount]
  split
  · rfl
  · simp [State.byteAt]

/-- After SWAP the registers R, G, B are those of the decode stage. -/
theorem swapped_px (c : CmdFields) (decode : State → Pass → Pass) (s : State) :
    (swapped c decode s).work.px = (decode (granted .scrr (outSize c) s) ⟨s.work, []⟩).work.px := by
  simp only [swapped, free_scrr_work, State.runStage_work, swapLoop_px_none]
  rfl

/-- The BGR path: the same pixels, swapped on the way from SCRR to DST. -/
theorem decoded_bgr {c : CmdFields} (ho : c.order = .bgr) {decode : State → Pass → Pass} {img : Nat → Pixel}
    {s : State} (hr : ∀ p a, (decode (granted .scrr (outSize c) s) p).out.read a =
      if a < 3 * (c.w.toNat * c.h.toNat) then some (chan (img (a / 3)) (a % 3)) else p.out.read a)
    (hpx : ∀ p, (decode (granted .scrr (outSize c) s) p).work.px = img (c.w.toNat * c.h.toNat - 1)) :
    Decoded c img s (swapped c decode s) where
  untouched := by
    unfold swapped
    exact ((((untouched_granted s _ _).trans (untouched_enter _ _)).trans
      (untouched_runStage _ (by decide) _)).trans (untouched_enter _ _)).trans
      ((untouched_runStage _ (by decide) _).trans (untouched_free _ _))
  inside := fun a ha => by
    have h1 : 3 * (a / 3) + (2 - a % 3) < 3 * (c.w.toNat * c.h.toNat) := by omega
    have h2 : (3 * (a / 3) + (2 - a % 3)) / 3 = a / 3 := by omega
    have h3 : (3 * (a / 3) + (2 - a % 3)) % 3 = 2 - a % 3 := by omega
    rw [byteAt_swapped, if_pos ha, byteAt_runStage_scrr, hr, if_pos h1, h2, h3, ho, Option.getD_some, byteOf]
  beyond := fun a ha => by rw [byteAt_swapped, if_neg (by omega)]
  scry := by simp [swapped]
  scrr := fun h => by rw [ho] at h; cases h
  sized := fun _ => rfl
  through := fun _ a ha => by
    unfold swapped
    rw [byteAt_free, byteAt_runStage_other _ _ (by decide), State.byteAt_enter, byteAt_runStage_scrr, hr, if_pos ha]
    rfl
  freed := fun _ => by simp [swapped]
  last := (swapped_px _ _ _).trans (hpx _)

/-- The pixels and the scratch use of a decoded image, seen after the command has ended. -/
theorem Decoded.shows {c : CmdFields} {img : Nat → Pixel} {s t : State} (h : Decoded c img s t) {q : Nat}
    (hq : q < c.w.toNat * c.h.toNat) : (succeed t).Shows c q (img q) :=
  ⟨pixelAt_of_bytes (img := img) (fun a ha => by rw [byteAt_succeed]; exact h.inside a ha) hq,
   fun ho => pixelAt_of_bytes (img := img) (fun a ha => by rw [byteAt_succeed]; exact h.through ho a ha) hq⟩

theorem Decoded.scratchUse {c : CmdFields} {img : Nat → Pixel} {s t : State} (h : Decoded c img s t)
    (hs : s.scrr.alloc = false) : ScratchUse c s (succeed t) :=
  ⟨fun ho => by rw [succeed_scrr, h.scrr ho]; exact Scratch.free_eq hs, fun ho => h.sized ho⟩

/-- R, G, B after a command that decodes an image of at least one pixel. -/
theorem Decoded.lastPixel {c : CmdFields} {img : Nat → Pixel} {s t : State} (h : Decoded c img s t)
    (hw : 0 < c.w.toNat) (hh : 0 < c.h.toNat) : LastPixel c (succeed t) :=
  h.last.trans (h.shows (Nat.sub_lt (Nat.mul_pos hw hh) Nat.one_pos)).1.symm

/-- A command that decodes an image and ends. -/
theorem succeeded_of_decoded {c : CmdFields} {img : Nat → Pixel} {s t : State} (h : Decoded c img s t) :
    Succeeded c s (succeed t) where
  kept := h.untouched.kept.trans (by constructor <;> rfl)
  idle := succeed_idle t
  status := rfl
  errmsg := h.untouched.errmsg
  beyond := fun a ha => by rw [byteAt_succeed, h.beyond a ha]

/-- The working registers after SWAP, R, G, B among those the decode stage left. -/
theorem swapped_work (c : CmdFields) (decode : State → Pass → Pass) (s : State) :
    let t := swapped c decode s
    t.work = { (decode (granted .scrr (outSize c) s) ⟨s.work, []⟩).work with
      row := t.work.row, col := t.work.col, ps := t.work.ps, pd := t.work.pd } := by
  simp only [swapped, free_scrr_work, State.runStage_work]
  refine (swapLoop_work _ _ _ _ _).trans ?_
  simp only [swapLoop_px_none]
  rfl

theorem Decoded.of_enter {c : CmdFields} {img : Nat → Pixel} {s t : State} {p : Phase}
    (h : Decoded c img (s.enter p) t) : Decoded c img s t where
  untouched := (untouched_enter s p).trans h.untouched
  inside := h.inside
  beyond := fun a ha => by rw [h.beyond a ha, State.byteAt_enter]
  scry := h.scry
  scrr := h.scrr
  sized := h.sized
  through := h.through
  freed := h.freed
  last := h.last

/-- What `decodeAndSwap` can do: be refused SCRR (BGR only), or leave the pixels of its decode stage. -/
theorem decodeAndSwap_cases {c : CmdFields} (decode : State → Pass → Pass) {img : Nat → Pixel} {s : State}
    (hr : ∀ t, t = s ∨ t = granted .scrr (outSize c) s → ∀ p a, (decode t p).out.read a =
      if a < 3 * (c.w.toNat * c.h.toNat) then some (chan (img (a / 3)) (a % 3)) else p.out.read a)
    (hpx : ∀ t, t = s ∨ t = granted .scrr (outSize c) s → ∀ p,
      (decode t p).work.px = img (c.w.toNat * c.h.toNat - 1)) :
    (c.order = .bgr ∧ ¬ s.CapHolds (s.scratchUsed + outSize c) ∧
      decodeAndSwap c decode s = .raised .allocationFailure (freeAll s)) ∨
    ((c.order = .bgr → s.CapHolds (s.scratchUsed + outSize c)) ∧
      ∃ t, decodeAndSwap c decode s = .done t ∧ Decoded c img s t ∧
        ∃ s' p, (s' = s ∨ s' = granted .scrr (outSize c) s) ∧ p.work = s.work ∧
          (c.order = .rgb → t.work = (decode s' p).work) ∧
          t.work = { (decode s' p).work with
            row := t.work.row, col := t.work.col, ps := t.work.ps, pd := t.work.pd }) := by
  cases ho : c.order with
  | rgb =>
    refine .inr ⟨fun h => (by cases h), _, decodeAndSwap_rgb ho decode s, decoded_rgb ho (hr s (.inl rfl)) (hpx s (.inl rfl)),
      s, ⟨s.work, s.dst⟩, .inl rfl, rfl, fun _ => rfl, rfl⟩
  | bgr =>
    by_cases hc : s.CapHolds (s.scratchUsed + outSize c)
    · exact .inr ⟨fun _ => hc, _, decodeAndSwap_bgr ho decode hc, decoded_bgr ho (hr _ (.inr rfl)) (hpx _ (.inr rfl)),
        _, ⟨s.work, []⟩, .inr rfl, rfl, fun h => (by cases h), swapped_work c decode s⟩
    · exact .inl ⟨rfl, hc, decodeAndSwap_refused ho decode hc⟩

/-! ### All that a command can do -/

/-- The scratch a BGR command needs, seen from a state with none allocated. -/
theorem capHolds_singleStage {c : CmdFields} {s : State} (hs : s.ScratchFree) :
    s.CapHolds (singleStageNeed c) ↔ (c.order = .bgr → s.CapHolds (s.scratchUsed + outSize c)) := by
  rw [scratchUsed_free hs, Nat.zero_add]
  cases ho : c.order <;> simp [singleStageNeed, ho, outSize, State.CapHolds]

/-- The outcomes of a command whose pipeline is one decode stage, with SWAP for BGR: from what the stage
writes (`hr`, `hpx`, `himg`) and what the result asks for (`hresult`). -/
theorem singleStage_outcomes {cls : LayoutClass} {make : CmdFields → Instr}
    {decode : CmdFields → State → Pass → Pass} {img : CmdFields → State → Nat → Pixel}
    {result : CmdFields → State → State → Prop}
    (hexec : ∀ c s, exec (make c) s = .next (runCommand cls c (decodeAndSwap c (decode c)) s))
    (hr : ∀ c s, Valid cls c → ∀ p a, (decode c s p).out.read a =
      if a < 3 * (c.w.toNat * c.h.toNat) then some (chan (img c s (a / 3)) (a % 3)) else p.out.read a)
    (hpx : ∀ c s, Valid cls c → ∀ p, (decode c s p).work.px = img c s (c.w.toNat * c.h.toNat - 1))
    (himg : ∀ c s n, img c (granted .scrr n s) = img c s)
    (himg' : ∀ c s p, img c (s.enter p) = img c s)
    (hresult : ∀ c s t s' p, Valid cls c → Decoded c (img c s) s t → p.work = s.work →
      (c.order = .rgb → t.work = (decode c s' p).work) →
      t.work = { (decode c s' p).work with
        row := t.work.row, col := t.work.col, ps := t.work.ps, pd := t.work.pd } →
      s.ScratchFree → result c s (succeed t)) :
    Outcomes cls make singleStageNeed (fun c s t => result c s t ∧ LastPixel c t) := by
  intro c s hs
  have hs' : (s.enter .check).ScratchFree := hs
  have hr' : Valid cls c → ∀ t, t = s.enter .check ∨ t = granted .scrr (outSize c) (s.enter .check) →
      ∀ p a, (decode c t p).out.read a =
        if a < 3 * (c.w.toNat * c.h.toNat) then some (chan (img c s (a / 3)) (a % 3)) else p.out.read a := by
    rintro hv t (rfl | rfl) p a
    · rw [hr c _ hv p a, himg']
    · rw [hr c _ hv p a, himg, himg']
  have hpx' : Valid cls c → ∀ t, t = s.enter .check ∨ t = granted .scrr (outSize c) (s.enter .check) →
      ∀ p, (decode c t p).work.px = img c s (c.w.toNat * c.h.toNat - 1) := by
    rintro hv t (rfl | rfl) p
    · rw [hpx c _ hv p, himg']
    · rw [hpx c _ hv p, himg, himg']
  refine ⟨fun hv => ?_, fun hv hc => ?_, fun hv hc => ?_⟩
  · rw [hexec, runCommand_invalid hv]
    refine ⟨_, rfl, failed_raise _ c (untouched_enter s _) rfl, by simp, ?_, ?_⟩
    · simp [Scratch.free_eq hs.1]
    · simp [Scratch.free_eq hs.2]
  · rw [hexec, runCommand_valid hv]
    rcases decodeAndSwap_cases (decode c) (hr' hv) (hpx' hv) with ⟨_, _, he⟩ | ⟨h, _⟩
    · rw [he]
      refine ⟨_, rfl, failed_raise _ c ((untouched_enter s _).trans (untouched_freeAll _)) rfl, by simp, ?_, fun _ => ⟨by simp, ?_⟩⟩
      · simp [Scratch.free_eq hs.2]
      · simp [Scratch.free_eq hs.1]
    · exact absurd ((capHolds_singleStage hs).2 h) hc
  · rw [hexec, runCommand_valid hv]
    rcases decodeAndSwap_cases (decode c) (hr' hv) (hpx' hv) with ⟨ho, h, _⟩ | ⟨_, t, he, hd, s', p, _, hp, hw, hw'⟩
    · exact absurd ((capHolds_singleStage hs).1 hc ho) h
    · rw [he]
      exact ⟨_, rfl, succeeded_of_decoded hd.of_enter, hresult c s t s' p hv hd.of_enter hp hw hw' hs,
        hd.of_enter.lastPixel hv.wPos hv.hPos⟩

end Sys2Proof.Machine
end

