-- ==== Sys2Proof/Laws/Pipelines.lean ====
section
/-! SUPPORT. What the pipelines of the five classes do, once: all their outcomes, from the laws of their stages. -/

namespace Sys2Proof.Machine

theorem kept_succeed (s : State) : Kept s (succeed s) := by constructor <;> rfl

/-- R, G, B hold the last pixel of the source; so it is the last one of the image. -/
theorem DirectResult.lastPixel {native : Order} {c : CmdFields} {s t : State} (h : DirectResult native c s t)
    (hN : 0 < c.w.toNat * c.h.toNat)
    (hpx : t.work.px = pixelIn native (s.byteAt .src) (c.w.toNat * c.h.toNat - 1)) : LastPixel c t := by
  unfold LastPixel
  rw [hpx]
  by_cases ho : c.order = native
  · have hc := h.copied ho
    rw [pixelAt_eq, ho]
    cases native <;> simp only [pixelIn] <;>
      rw [hc _ (by omega), hc _ (by omega), hc _ (by omega)]
  · obtain ⟨h0, h1, h2⟩ := h.swapped ho (c.w.toNat * c.h.toNat - 1) (by omega)
    rw [pixelAt_eq]
    cases native <;> cases hc : c.order <;>
      first
        | exact absurd hc ho
        | simp only [pixelIn, h0, h1, h2]

theorem direct_outcomes {native : Order} {make : CmdFields → Instr}
    (hexec : ∀ c s, exec (make c) s = .next (runCommand .packedRgb24 c (directPipeline native c) s)) :
    Outcomes .packedRgb24 make (fun _ => 0) (fun c s t => (DirectResult native c s t ∧ WorkFrame .packedRgb24 c s t) ∧ LastPixel c t) := by
  intro c s hs
  refine ⟨fun hv => ?_, fun _ hc => absurd (fun _ _ => Nat.zero_le _) hc, fun hv hc => ?_⟩
  · rw [hexec, runCommand_invalid hv]
    refine ⟨_, rfl, failed_raise _ c (untouched_enter s _) rfl, by simp, ?_, ?_⟩
    · simp [Scratch.free_eq hs.1]
    · simp [Scratch.free_eq hs.2]
  · rw [hexec, runCommand_valid hv]
    have hsucc : ∀ f : Pass → Pass, (∀ a, 3 * (c.w.toNat * c.h.toNat) ≤ a → (f ⟨s.work, s.dst⟩).out.read a = s.dst.read a) →
        Succeeded c s (succeed (((s.enter .check).enter .decode).runStage .dst f)) := fun f hf =>
      { kept := by
          have h : Untouched s (((s.enter .check).enter .decode).runStage .dst f) :=
            ((untouched_enter s _).trans (untouched_enter _ _)).trans (untouched_runStage _ (by decide) f)
          exact h.kept.trans (kept_succeed _)
        idle := succeed_idle _
        status := rfl
        errmsg := by simp
        beyond := fun a ha => by
          rw [byteAt_succeed, byteAt_runStage_dst]
          simp only [State.enter_work, State.enter_dst, hf a ha]; rfl }
    have hN : 0 < pixelCount c := Nat.mul_pos hv.wPos hv.hPos
    by_cases ho : native = c.order
    · simp only [directPipeline, if_pos ho, conclude_done]
      refine ⟨_, rfl, hsucc _ fun a ha => by rw [copyLoop_read, pixelCount, if_neg (by omega)], ?_⟩
      refine (fun h => ⟨⟨h, copyLoop_work _ _ _ _ _⟩, h.lastPixel hN (copyLoop_px _ _ hN _ _)⟩)
        (⟨fun _ a ha => ?_, fun h => absurd ho.symm h, ?_, ?_⟩ : DirectResult native c s _)
      · rw [byteAt_succeed, byteAt_runStage_dst, copyLoop_read, pixelCount, if_pos ha]
        simp
      · simp [Scratch.free_eq hs.1]
      · simp [Scratch.free_eq hs.2]
    · simp only [directPipeline, if_neg ho, conclude_done]
      refine ⟨_, rfl, hsucc _ fun a ha => by rw [swapLoop_read, pixelCount, if_neg (by omega)], ?_⟩
      refine (fun h => ⟨⟨h, swapLoop_work _ _ _ _ _⟩, h.lastPixel hN (swapLoop_px_some _ _ hN _ _)⟩)
        (⟨fun h => absurd h.symm ho, fun _ q hq => ?_, ?_, ?_⟩ : DirectResult native c s _)
      · have key : ∀ j, j < 3 → (succeed (((s.enter .check).enter .decode).runStage .dst
            (swapLoop (some native) c.w.toNat (pixelCount c) ((s.enter .check).byteAt .src)))).byteAt .dst (3 * q + j) =
            s.byteAt .src (3 * q + (2 - j)) := by
          intro j hj
          rw [byteAt_succeed, byteAt_runStage_dst, swapLoop_read, pixelCount, if_pos (by omega)]
          have h1 : (3 * q + j) / 3 = q := by omega
          have h2 : (3 * q + j) % 3 = j := by omega
          simp [h1, h2]
        exact ⟨key 0 (by omega), key 1 (by omega), key 2 (by omega)⟩
      · simp [Scratch.free_eq hs.1]
      · simp [Scratch.free_eq hs.2]

/-- Outcomes with a weaker result. -/
theorem Outcomes.mono {cls : LayoutClass} {make : CmdFields → Instr} {need : CmdFields → Nat}
    {result result' : CmdFields → State → State → Prop} (h : Outcomes cls make need result)
    (hr : ∀ c s t, result c s t → result' c s t) : Outcomes cls make need result' :=
  fun c s hs => have ⟨h1, h2, h3⟩ := h c s hs
    ⟨h1, h2, fun hv hc => have ⟨t, ht, hsu, hres⟩ := h3 hv hc; ⟨t, ht, hsu, hr c s t hres⟩⟩

/-- A command that needs no scratch byte is never refused one. -/
theorem Outcomes.withoutScratch {cls : LayoutClass} {make : CmdFields → Instr}
    {result : CmdFields → State → State → Prop} (h : Outcomes cls make (fun _ => 0) result) :
    OutcomesWithoutScratch cls make result :=
  fun c s hs => have ⟨h1, _, h3⟩ := h c s hs
    ⟨h1, fun hv => h3 hv fun _ _ => Nat.zero_le _⟩

theorem rgb565_outcomes {make : CmdFields → Instr}
    (hexec : ∀ c s, exec (make c) s = .next (runCommand .rgb565 c (decodeAndSwap c fun s => rgb565Loop s.params.unpack c.w.toNat c.h.toNat (s.byteAt .src)) s)) :
    Outcomes .rgb565 make singleStageNeed (fun c s t => (Rgb565Result c s t ∧ WorkFrame .rgb565 c s t) ∧ LastPixel c t) := by
  refine singleStage_outcomes
    (decode := fun c s => rgb565Loop s.params.unpack c.w.toNat c.h.toNat (s.byteAt .src))
    (img := fun c s q => unpack565 s.params.unpack (rgb565Word (s.byteAt .src) q))
    hexec (fun c s _ p a => rgb565Loop_read _ _ _ _ _ _)
    (fun c s hv p => by rw [Nat.mul_comm]; exact rgb565Loop_px _ hv.wPos hv.hPos _ _) ?_ ?_ ?_
  · intro c s n; funext q
    rw [byteAt_granted_other s n (by decide)]; rfl
  · intro c s p; funext q; simp
  · intro c s t s' p hv hd hp hw hw' hs
    refine ⟨⟨fun q hq => ?_, ?_, ?_⟩, ?_⟩
    · exact hd.shows hq
    · simp [hd.scry, Scratch.free_eq hs.1]
    · exact hd.scratchUse hs.2
    · have h2 := rgb565Loop_work s'.params.unpack c.w.toNat c.h.toNat (s'.byteAt .src) p
      simp only [WorkFrame, succeed_work]
      simp only at h2
      rw [Work.ext_iff] at hw' h2 ⊢
      simp only [hp] at hw' h2 ⊢
      simp_all

theorem packed_outcomes {pos : GroupPos} {make : CmdFields → Instr}
    (hexec : ∀ c s, exec (make c) s = .next (runCommand .packedYuv422 c (packedPipeline pos c) s)) :
    Outcomes .packedYuv422 make singleStageNeed (fun c s t => (PackedResult pos c s t ∧ WorkFrame .packedYuv422 c s t) ∧ LastPixel c t) := by
  refine singleStage_outcomes
    (decode := fun c s => yuv422Loop pos c.w.toNat c.h.toNat (s.byteAt .src))
    (img := fun c s q => packedPixel pos (s.byteAt .src) q)
    hexec (fun c s hv p a => ?_)
    (fun c s hv p => by rw [Nat.mul_comm]; exact yuv422Loop_px _ (hv.even (.inl rfl)).1 hv.wPos hv.hPos _ _) ?_ ?_ ?_
  · obtain ⟨hw, hh⟩ := hv.even (.inl rfl)
    rw [yuv422Loop_read]
    have : 6 * (c.h.toNat * (c.w.toNat / 2)) = 3 * (c.w.toNat * c.h.toNat) := by
      obtain ⟨m, hm⟩ : ∃ m, c.w.toNat = 2 * m := ⟨c.w.toNat / 2, by omega⟩
      rw [hm, show 2 * m / 2 = m by omega]; ring
    rw [this]
  · intro c s n; funext q
    rw [byteAt_granted_other s n (by decide)]
  · intro c s p; funext q; simp
  · intro c s t s' p hv hd hp hw hw' hs
    refine ⟨⟨fun g hg => ?_, ?_, ?_⟩, ?_⟩
    · have k0 := hd.shows (q := 2 * g) (by omega)
      have k1 := hd.shows (q := 2 * g + 1) (by omega)
      have h1 : 2 * g / 2 = g := by omega
      have h2 : (2 * g + 1) / 2 = g := by omega
      have h3 : 2 * g % 2 = 0 := by omega
      have h4 : (2 * g + 1) % 2 = 1 := by omega
      simp only [packedPixel, h1, h3, if_true] at k0
      simp only [packedPixel, h2, h4, one_ne_zero, if_false] at k1
      exact ⟨k0, k1⟩
    · simp [hd.scry, Scratch.free_eq hs.1]
    · exact hd.scratchUse hs.2
    · have h2 := yuv422Loop_work pos c.w.toNat c.h.toNat (s'.byteAt .src) p
      simp only [WorkFrame, succeed_work]
      simp only at h2
      rw [Work.ext_iff] at hw' h2
      simp only [hp] at hw' h2 ⊢
      simp_all

theorem planar_outcomes {pl : Nat → PlaneBases} {make : CmdFields → Instr}
    (hexec : ∀ c s, exec (make c) s = .next (runCommand .planarYuv420 c (planarPipeline (pl (c.w.toNat * c.h.toNat)) c) s)) :
    Outcomes .planarYuv420 make singleStageNeed
      (fun c s t => (PlanarResult (fun n => (pl n).ub) (fun n => (pl n).vb) c s t ∧ WorkFrame .planarYuv420 c s t) ∧ LastPixel c t) := by
  refine singleStage_outcomes
    (decode := fun c s => planarLoop (pl (c.w.toNat * c.h.toNat)) c.w.toNat c.h.toNat (s.byteAt .src))
    (img := fun c s q => planarPixel (pl (c.w.toNat * c.h.toNat)) (s.byteAt .src) c.w.toNat (q / c.w.toNat) (q % c.w.toNat))
    hexec (fun c s hv p a => ?_)
    (fun c s hv p => planarLoop_last _ (hv.even (.inr (.inl rfl))).1 hv.wPos hv.hPos _ _) ?_ ?_ ?_
  · obtain ⟨hw, hh⟩ := hv.even (.inr (.inl rfl))
    exact planarLoop_read _ hw _ _ _ _
  · intro c s n; funext q
    rw [byteAt_granted_other s n (by decide)]
  · intro c s p; funext q; simp
  · intro c s t s' p hv hd hp hw hw' hs
    refine ⟨⟨fun r k hr hk => ?_, ?_, ?_⟩, ?_⟩
    · have hq : r * c.w.toNat + k < c.w.toNat * c.h.toNat := by
        have : (r + 1) * c.w.toNat ≤ c.h.toNat * c.w.toNat := Nat.mul_le_mul_right _ hr
        rw [Nat.succ_mul] at this
        rw [Nat.mul_comm c.w.toNat]; omega
      have key := hd.shows hq
      obtain ⟨e1, e2⟩ := line_position (l := r) hk
      simp only [e1, e2, planarPixel] at key
      exact key
    · simp [hd.scry, Scratch.free_eq hs.1]
    · exact hd.scratchUse hs.2
    · have h2 := planarLoop_work (pl (c.w.toNat * c.h.toNat)) c.w.toNat c.h.toNat (s'.byteAt .src) p
      simp only [WorkFrame, succeed_work]
      simp only at h2
      refine ⟨(congrArg Work.tmp16 hw').trans ((congrArg Work.tmp16 h2).trans (show p.work.tmp16 = s.work.tmp16 by rw [hp])), fun ho => ?_⟩
      rw [hw ho]
      exact (congrArg Work.ps h2).trans (show p.work.ps = s.work.ps by rw [hp])

/-- The state after UNPACK, SCRY granted. -/
def unpacked (ln : LineOffsets) (c : CmdFields) (s : State) : State :=
  let s := granted .scry (planarSize c) s
  (s.enter .unpack).runStage .scry (unpackLoop ln c.w.toNat c.h.toNat (s.byteAt .src))

theorem untouched_unpacked (ln : LineOffsets) (c : CmdFields) (s : State) : Untouched s (unpacked ln c s) := by
  unfold unpacked
  exact ((untouched_granted s _ _).trans (untouched_enter _ _)).trans (untouched_runStage _ (by decide) _)

theorem unpacked_dst (ln : LineOffsets) (c : CmdFields) (s : State) : (unpacked ln c s).dst = s.dst := rfl
theorem unpacked_scrr (ln : LineOffsets) (c : CmdFields) (s : State) : (unpacked ln c s).scrr = s.scrr := rfl
theorem unpacked_dstJunk (ln : LineOffsets) (c : CmdFields) (s : State) : (unpacked ln c s).dstJunk = s.dstJunk := rfl
theorem unpacked_size (ln : LineOffsets) (c : CmdFields) (s : State) : (unpacked ln c s).scry.size = planarSize c := rfl
theorem unpacked_work (ln : LineOffsets) (c : CmdFields) (s : State) :
    let t := unpacked ln c s
    t.work = { s.work with row := t.work.row, col := t.work.col } := by
  simp only [unpacked, State.runStage_work]
  exact unpackLoop_work _ _ _ _ _

theorem unpacked_used (ln : LineOffsets) (c : CmdFields) {s : State} (hs : s.ScratchFree) :
    (unpacked ln c s).scratchUsed = planarSize c := by
  simp [State.scratchUsed, unpacked, granted, State.withBuf, Scratch.held, hs.2]

/-- The planar intermediate. -/
theorem byteAt_unpacked (ln : LineOffsets) {c : CmdFields} {s : State} (hw : c.w.toNat % 2 = 0)
    (hh : c.h.toNat % 2 = 0) {a : Nat} (ha : a < 3 * (c.w.toNat * c.h.toNat) / 2) :
    (unpacked ln c s).byteAt .scry a = unpackByte ln (s.byteAt .src) c.w.toNat c.h.toNat a := by
  unfold unpacked
  rw [byteAt_runStage_scry, unpackLoop_read ln hw hh, if_pos ha, byteAt_granted_other s _ (by decide)]; rfl

theorem vendorPipeline_refused (ln : LineOffsets) {c : CmdFields} {s : State} (hs : s.ScratchFree)
    (h : ¬ s.CapHolds (planarSize c)) : vendorPipeline ln c s = .raised .allocationFailure (freeAll s) := by
  rw [vendorPipeline, alloc_refused (by rwa [scratchUsed_free hs, Nat.zero_add])]

theorem vendorPipeline_granted (ln : LineOffsets) {c : CmdFields} {s : State} (hs : s.ScratchFree)
    (h : s.CapHolds (planarSize c)) : vendorPipeline ln c s = thenFree .scry (decodeAndSwap c
      (fun s => planarLoop (basesUV c.w.toNat c.h.toNat) c.w.toNat c.h.toNat (s.byteAt .scry)) (unpacked ln c s)) := by
  rw [vendorPipeline, alloc_granted (by rwa [scratchUsed_free hs, Nat.zero_add])]; rfl

/-- One pixel of PLANAR on the intermediate, from the source. -/
theorem planarPixel_unpacked {ln : LineOffsets} {inp mid : Nat → Byte} {w h : Nat} (hw : w % 2 = 0) (hh : h % 2 = 0)
    (hmid : ∀ a, a < 3 * (w * h) / 2 → mid a = unpackByte ln inp w h a) {r k : Nat} (hr : r < h) (hk : k < w) :
    planarPixel (basesUV w h) mid w r k =
      pixel (rebias (inp (3 * w * (r / 2) + (if r % 2 = 0 then ln.y0 else ln.y1) + k)))
        (chromaTerms (rebias (inp (3 * w * (r / 2) + ln.u + k / 2))) (rebias (inp (3 * w * (r / 2) + ln.v + k / 2)))) := by
  obtain ⟨m, rfl⟩ : ∃ m, w = 2 * m := ⟨w / 2, by omega⟩
  obtain ⟨n, rfl⟩ : ∃ n, h = 2 * n := ⟨h / 2, by omega⟩
  have hm : 2 * m / 2 = m := by omega
  have hN : 2 * m * (2 * n) = 4 * (n * m) := by ring
  have h5 : 5 * (4 * (n * m)) / 4 = 5 * (n * m) := by omega
  have hl : r * (2 * m) + k < 4 * (n * m) := by
    have : (r + 1) * (2 * m) ≤ 2 * n * (2 * m) := Nat.mul_le_mul_right _ hr
    rw [Nat.succ_mul, Nat.mul_comm (2 * n), hN] at this; omega
  have hc : r / 2 * m + k / 2 < n * m := by
    have : (r / 2 + 1) * m ≤ n * m := Nat.mul_le_mul_right _ (by omega)
    rw [Nat.succ_mul] at this; omega
  obtain ⟨e1, e2⟩ := line_position (l := r) hk
  obtain ⟨e3, e4⟩ := line_position (l := r / 2) (show k / 2 < m by omega)
  simp only [planarPixel, basesUV, hm]
  rw [hmid _ (by rw [hN]; omega), hmid _ (by rw [hN]; omega), hmid _ (by rw [hN]; omega)]
  have a1 : 4 * (n * m) + (r / 2 * m + k / 2) - 4 * (n * m) = r / 2 * m + k / 2 := by omega
  have a2 : 5 * (n * m) + (r / 2 * m + k / 2) - 5 * (n * m) = r / 2 * m + k / 2 := by omega
  have u1 : unpackByte ln inp (2 * m) (2 * n) (r * (2 * m) + k) =
      rebias (inp (3 * (2 * m) * (r / 2) + (if r % 2 = 0 then ln.y0 else ln.y1) + k)) := by
    rw [unpackByte, hN, if_pos hl, e1, e2]
  have u2 : unpackByte ln inp (2 * m) (2 * n) (4 * (n * m) + (r / 2 * m + k / 2)) =
      rebias (inp (3 * (2 * m) * (r / 2) + ln.u + k / 2)) := by
    rw [unpackByte, hN, h5, hm, if_neg (by omega), if_pos (by omega), a1, e3, e4]
  have u3 : unpackByte ln inp (2 * m) (2 * n) (5 * (n * m) + (r / 2 * m + k / 2)) =
      rebias (inp (3 * (2 * m) * (r / 2) + ln.v + k / 2)) := by
    rw [unpackByte, hN, h5, hm, if_neg (by omega), if_neg (by omega), a2, e3, e4]
  rw [hN, h5, u1, u2, u3]

theorem capHolds_mono {s : State} {m n : Nat} (h : s.CapHolds n) (hmn : m ≤ n) : s.CapHolds m :=
  fun cap hc => Nat.le_trans hmn (h cap hc)

/-- The scratch a vendor command needs, as its two requests ask for it. -/
theorem capHolds_vendor {c : CmdFields} {s : State} (hv : Valid .vendor c) :
    s.CapHolds (vendorNeed c) ↔ s.CapHolds (planarSize c) ∧ (c.order = .bgr → s.CapHolds (planarSize c + outSize c)) := by
  obtain ⟨hw, hh⟩ := hv.even (.inr (.inr rfl))
  cases ho : c.order with
  | rgb => simp [vendorNeed, ho, planarSize]
  | bgr =>
    have he : vendorNeed c = planarSize c + outSize c := by
      simp only [vendorNeed, ho, planarSize, outSize]
      obtain ⟨m, hm⟩ : ∃ m, c.w.toNat = 2 * m := ⟨c.w.toNat / 2, by omega⟩
      have : c.w.toNat * c.h.toNat = 2 * (m * c.h.toNat) := by rw [hm]; ring
      rw [this]; omega
    rw [he]
    exact ⟨fun h => ⟨capHolds_mono h (Nat.le_add_right _ _), fun _ => h⟩, fun h => h.2 rfl⟩

/-- The four lines of group `g` in the intermediate. -/
theorem unpackByte_lines (ln : LineOffsets) (inp : Nat → Byte) {w h : Nat} (hw : w % 2 = 0) (hh : h % 2 = 0) {g : Nat} (hg : g < h / 2) :
    (∀ k, k < w → 
      (2 * g * w + k < 3 * (w * h) / 2 ∧ unpackByte ln inp w h (2 * g * w + k) = rebias (inp (3 * w * g + ln.y0 + k))) ∧
      ((2 * g + 1) * w + k < 3 * (w * h) / 2 ∧ unpackByte ln inp w h ((2 * g + 1) * w + k) = rebias (inp (3 * w * g + ln.y1 + k)))) ∧
    (∀ k, k < w / 2 →
      (w * h + g * (w / 2) + k < 3 * (w * h) / 2 ∧ unpackByte ln inp w h (w * h + g * (w / 2) + k) = rebias (inp (3 * w * g + ln.u + k))) ∧
      (5 * (w * h) / 4 + g * (w / 2) + k < 3 * (w * h) / 2 ∧ unpackByte ln inp w h (5 * (w * h) / 4 + g * (w / 2) + k) = rebias (inp (3 * w * g + ln.v + k)))) := by
  obtain ⟨m, rfl⟩ : ∃ m, w = 2 * m := ⟨w / 2, by omega⟩
  obtain ⟨n, rfl⟩ : ∃ n, h = 2 * n := ⟨h / 2, by omega⟩
  have hm : 2 * m / 2 = m := by omega
  have hN : 2 * m * (2 * n) = 4 * (n * m) := by ring
  have h5 : 5 * (4 * (n * m)) / 4 = 5 * (n * m) := by omega
  have hgn : g < n := by omega
  have hgm : g * m + m ≤ n * m := by
    have : (g + 1) * m ≤ n * m := Nat.mul_le_mul_right _ hgn
    rwa [Nat.succ_mul] at this
  have hA : 2 * g * (2 * m) = 4 * (g * m) := by ring
  have hB : (2 * g + 1) * (2 * m) = 4 * (g * m) + 2 * m := by ring
  rw [hN, h5, hm]
  constructor
  · intro k hk
    obtain ⟨e1, e2⟩ := line_position (l := 2 * g) hk
    obtain ⟨e3, e4⟩ := line_position (l := 2 * g + 1) hk
    refine ⟨⟨by omega, ?_⟩, ⟨by omega, ?_⟩⟩
    · rw [unpackByte, hN, if_pos (by omega), e1, e2, if_pos (by omega), Nat.mul_div_cancel_left _ (by decide)]
    · have : (2 * g + 1) / 2 = g := by omega
      rw [unpackByte, hN, if_pos (by omega), e3, e4, if_neg (by omega), this]
  · intro k hk
    obtain ⟨e1, e2⟩ := line_position (l := g) hk
    refine ⟨⟨by omega, ?_⟩, ⟨by omega, ?_⟩⟩
    · have : 4 * (n * m) + g * m + k - 4 * (n * m) = g * m + k := by omega
      rw [unpackByte, hN, h5, hm, if_neg (by omega), if_pos (by omega), this, e1, e2]
    · have : 5 * (n * m) + g * m + k - 5 * (n * m) = g * m + k := by omega
      rw [unpackByte, hN, h5, hm, if_neg (by omega), if_neg (by omega), this, e1, e2]

/-- A space that holds the intermediate holds it line by line. -/
theorem planarOf_unpackByte {ln : LineOffsets} {w h : Nat} {inp mid : Nat → Byte} (hw : w % 2 = 0) (hh : h % 2 = 0)
    (hm : ∀ a, a < 3 * (w * h) / 2 → mid a = unpackByte ln inp w h a) : PlanarOf ln w h inp mid :=
  ⟨fun _ k hg hk => have ⟨⟨a1, a2⟩, b1, b2⟩ := (unpackByte_lines ln inp hw hh hg).1 k hk
    ⟨(hm _ a1).trans a2, (hm _ b1).trans b2⟩,
   fun _ k hg hk => have ⟨⟨a1, a2⟩, b1, b2⟩ := (unpackByte_lines ln inp hw hh hg).2 k hk
    ⟨(hm _ a1).trans a2, (hm _ b1).trans b2⟩⟩

/-- What a vendor command's pipeline leaves. -/
theorem vendor_outcomes {lines : Nat → LineOffsets} {make : CmdFields → Instr}
    (hexec : ∀ c s, exec (make c) s = .next (runCommand .vendor c (vendorPipeline (lines c.w.toNat) c) s)) :
    Outcomes .vendor make vendorNeed (fun c s t => (VendorResult lines c s t ∧ WorkFrame .vendor c s t) ∧ LastPixel c t) := by
  intro c s hs
  have hs' : (s.enter .check).ScratchFree := hs
  have hcap : ∀ n, (s.enter .check).CapHolds n ↔ s.CapHolds n := fun n => Iff.rfl
  refine ⟨fun hv => ?_, fun hv hc => ?_, fun hv hc => ?_⟩
  · rw [hexec, runCommand_invalid hv]
    refine ⟨_, rfl, failed_raise _ c (untouched_enter s _) rfl, by simp, ?_, ?_⟩
    · simp [Scratch.free_eq hs.1]
    · simp [Scratch.free_eq hs.2]
  · rw [hexec, runCommand_valid hv]
    rw [capHolds_vendor hv] at hc
    by_cases h1 : s.CapHolds (planarSize c)
    · rw [vendorPipeline_granted _ hs' h1]
      cases ho : c.order with
      | rgb => exact absurd ⟨h1, fun h => by rw [ho] at h; cases h⟩ hc
      | bgr =>
        rw [decodeAndSwap_refused ho _ (by
          rw [unpacked_used _ _ hs']
          intro h2; exact hc ⟨h1, fun _ => h2⟩)]
        simp only [thenFree, conclude_raised]
        have hut : Untouched s (freeAll (unpacked (lines c.w.toNat) c (s.enter .check))) :=
          ((untouched_enter s _).trans (untouched_unpacked _ _ _)).trans (untouched_freeAll _)
        refine ⟨_, rfl, failed_raise _ c hut (by rw [freeAll_dst, unpacked_dst, State.enter_dst]), ?_, ?_,
          fun h => absurd rfl h⟩
        · have := unpacked_work (lines c.w.toNat) c (s.enter .check)
          simpa using this
        · simp [unpacked_scrr, Scratch.free_eq hs.2]
    · rw [vendorPipeline_refused _ hs' h1]
      simp only [conclude_raised]
      refine ⟨_, rfl, failed_raise _ c ((untouched_enter s _).trans (untouched_freeAll _)) rfl, by simp, ?_,
        fun h => absurd rfl h⟩
      simp [Scratch.free_eq hs.2]
  · rw [hexec, runCommand_valid hv]
    rw [capHolds_vendor hv] at hc
    obtain ⟨hw, hh⟩ := hv.even (.inr (.inr rfl))
    rw [vendorPipeline_granted _ hs' hc.1]
    generalize hu : unpacked (lines c.w.toNat) c (s.enter .check) = u
    have hby : ∀ a, a < 3 * (c.w.toNat * c.h.toNat) / 2 →
        u.byteAt .scry a = unpackByte (lines c.w.toNat) (s.byteAt .src) c.w.toNat c.h.toNat a := by
      intro a ha; rw [← hu, byteAt_unpacked _ hw hh ha, State.byteAt_enter]
    rcases decodeAndSwap_cases (c := c) (s := u)
      (fun s => planarLoop (basesUV c.w.toNat c.h.toNat) c.w.toNat c.h.toNat (s.byteAt .scry))
      (img := fun q => planarPixel (basesUV c.w.toNat c.h.toNat) (u.byteAt .scry) c.w.toNat (q / c.w.toNat) (q % c.w.toNat))
      (by
        rintro t (rfl | rfl) p a
        · exact planarLoop_read _ hw _ _ _ _
        · rw [byteAt_granted_other u _ (by decide)]
          exact planarLoop_read _ hw _ _ _ _)
      (by
        rintro t (rfl | rfl) p
        · exact planarLoop_last _ hw hv.wPos hv.hPos _ _
        · rw [byteAt_granted_other u _ (by decide)]
          exact planarLoop_last _ hw hv.wPos hv.hPos _ _) with ⟨ho, h, _⟩ | ⟨_, t, he, hd, s', p, _, hp, hwk, hwk'⟩
    · refine absurd ?_ h
      rw [← hu, unpacked_used _ _ hs']
      exact hc.2 ho
    · rw [he]
      simp only [thenFree, conclude_done]
      have hut : Untouched s t := by
        rw [← hu] at hd
        exact ((untouched_enter s _).trans (untouched_unpacked _ _ _)).trans hd.untouched
      refine ⟨_, rfl, ?_, ⟨⟨?_, ?_, ?_⟩, ?_⟩, hd.lastPixel hv.wPos hv.hPos⟩
      · exact {
          kept := (hut.trans (untouched_free t _)).kept.trans (kept_succeed _)
          idle := succeed_idle _
          status := rfl
          errmsg := hut.errmsg
          beyond := fun a ha => by
            rw [byteAt_succeed, byteAt_free, hd.beyond a ha, ← hu]
            simp only [State.byteAt, unpacked_dst, unpacked_dstJunk, State.enter_dst, State.enter_dstJunk] }
      · intro r k hr hk
        have hq : r * c.w.toNat + k < c.w.toNat * c.h.toNat := by
          have : (r + 1) * c.w.toNat ≤ c.h.toNat * c.w.toNat := Nat.mul_le_mul_right _ hr
          rw [Nat.succ_mul] at this
          rw [Nat.mul_comm c.w.toNat]; omega
        have key : (succeed (free .scry t)).Shows c _ _ := hd.shows hq
        obtain ⟨e1, e2⟩ := line_position (l := r) hk
        simp only [e1, e2, planarPixel_unpacked hw hh hby hr hk] at key
        exact key
      · have hy : (succeed (free .scry t)).scry = { u.scry with alloc := false } := by simp [hd.scry]
        refine ⟨by rw [hy, ← hu]; rfl, planarOf_unpackByte hw hh fun a ha => ?_⟩
        rw [byteAt_succeed, byteAt_free, ← hby a ha]
        simp only [State.byteAt, hd.scry]
      · refine ⟨fun ho => ?_, hd.sized⟩
        rw [succeed_scrr, free_scry_scrr, hd.scrr ho, ← hu, unpacked_scrr]
        exact Scratch.free_eq hs.2
      · have h2 := planarLoop_work (basesUV c.w.toNat c.h.toNat) c.w.toNat c.h.toNat (s'.byteAt .scry) p
        have h3 := unpacked_work (lines c.w.toNat) c (s.enter .check)
        rw [hu] at h3
        simp only [WorkFrame, succeed_work, free_scry_work]
        simp only at h2 h3
        have k1 : p.work.tmp16 = s.work.tmp16 := (congrArg Work.tmp16 hp).trans ((congrArg Work.tmp16 h3).trans rfl)
        have k2 : p.work.ps = s.work.ps := (congrArg Work.ps hp).trans ((congrArg Work.ps h3).trans rfl)
        refine ⟨(congrArg Work.tmp16 hwk').trans ((congrArg Work.tmp16 h2).trans k1), fun ho => ?_⟩
        rw [hwk ho]
        exact (congrArg Work.ps h2).trans k2

/-- Every supported command has all its outcomes, with the scratch of its class. -/
theorem outcomes_of_supported (i : Instr) (hi : classOf i ≠ .unsupported) :
    ∃ (make : CmdFields → Instr) (result : CmdFields → State → State → Prop), make i.fields = i ∧ Outcomes (classOf i) make (scratchNeed (classOf i))
      (fun c s t => (result c s t ∧ WorkFrame (classOf i) c s t) ∧ LastPixel c t) := by
  cases i with
  | convertRGB3 c => exact ⟨.convertRGB3, _, rfl, direct_outcomes fun _ _ => rfl⟩
  | convertBGR3 c => exact ⟨.convertBGR3, _, rfl, direct_outcomes fun _ _ => rfl⟩
  | convertRGBP c => exact ⟨.convertRGBP, _, rfl, rgb565_outcomes fun _ _ => rfl⟩
  | convertYUYV c => exact ⟨.convertYUYV, _, rfl, packed_outcomes fun _ _ => rfl⟩
  | convertYVYU c => exact ⟨.convertYVYU, _, rfl, packed_outcomes fun _ _ => rfl⟩
  | convertUYVY c => exact ⟨.convertUYVY, _, rfl, packed_outcomes fun _ _ => rfl⟩
  | convertYU12 c => exact ⟨.convertYU12, _, rfl, planar_outcomes (pl := fun n => ⟨n, 5 * n / 4⟩) fun _ _ => rfl⟩
  | convertYV12 c => exact ⟨.convertYV12, _, rfl, planar_outcomes (pl := fun n => ⟨5 * n / 4, n⟩) fun _ _ => rfl⟩
  | convertS501 c => exact ⟨.convertS501, _, rfl, vendor_outcomes (lines := linesA) fun _ _ => rfl⟩
  | convertS505 c => exact ⟨.convertS505, _, rfl, vendor_outcomes (lines := linesB) fun _ _ => rfl⟩
  | convertS508 c => exact ⟨.convertS508, _, rfl, vendor_outcomes (lines := linesC) fun _ _ => rfl⟩
  | convertUnsupported code c => exact absurd rfl hi

end Sys2Proof.Machine
end

