-- ==== Sys2Proof/Laws/Invariant.lean ====
section
/-! SUPPORT. What every command keeps: the parts of the invariant, stage by stage, and their sum. -/

namespace Sys2Proof.Machine

/-- What a stage, an allocation or a release keeps of the invariant, from `s` to `u`. -/
structure Steady (s u : State) : Prop where
  untouched : Untouched s u
  dstWf     : s.dst.wf → u.dst.wf
  scryWf    : s.scry.mem.wf → u.scry.mem.wf
  scrrWf    : s.scrr.mem.wf → u.scrr.mem.wf
  draws     : s.draws ≤ u.draws
  scryDrawn : s.scry.draw < s.draws → u.scry.draw < u.draws
  scrrDrawn : s.scrr.draw < s.draws → u.scrr.draw < u.draws

theorem Steady.trans {s t u : State} (h : Steady s t) (k : Steady t u) : Steady s u where
  untouched := h.untouched.trans k.untouched
  dstWf := k.dstWf ∘ h.dstWf
  scryWf := k.scryWf ∘ h.scryWf
  scrrWf := k.scrrWf ∘ h.scrrWf
  draws := Nat.le_trans h.draws k.draws
  scryDrawn := k.scryDrawn ∘ h.scryDrawn
  scrrDrawn := k.scrrDrawn ∘ h.scrrDrawn

theorem steady_enter (s : State) (p : Phase) : Steady s (s.enter p) :=
  ⟨untouched_enter s p, id, id, id, Nat.le_refl _, id, id⟩

theorem steady_granted (s : State) (b : Buf) (n : Nat) : Steady s (granted b n s) := by
  cases b
  · exact ⟨untouched_granted s _ n, id, fun _ => List.Pairwise.nil, id, Nat.le_succ _, fun _ => Nat.lt_succ_self _,
      Nat.lt_succ_of_lt⟩
  · exact ⟨untouched_granted s _ n, id, id, fun _ => List.Pairwise.nil, Nat.le_succ _, Nat.lt_succ_of_lt,
      fun _ => Nat.lt_succ_self _⟩

theorem steady_free (s : State) (b : Buf) : Steady s (free b s) := by
  cases b <;> exact ⟨untouched_free s _, id, id, id, Nat.le_refl _, id, id⟩

theorem steady_freeAll (s : State) : Steady s (freeAll s) := (steady_free s _).trans (steady_free _ _)

/-- A stage that keeps the canonical form. -/
theorem steady_runStage (s : State) {out : Space} (h : out ≠ .src) {f : Pass → Pass}
    (hf : ∀ p : Pass, p.out.wf → (f p).out.wf) : Steady s (s.runStage out f) := by
  cases out with
  | src => exact absurd rfl h
  | dst => exact ⟨untouched_runStage s h f, hf ⟨s.work, s.dst⟩, id, id, Nat.le_refl _, id, id⟩
  | scry => exact ⟨untouched_runStage s h f, id, hf ⟨s.work, s.scry.mem⟩, id, Nat.le_refl _, id, id⟩
  | scrr => exact ⟨untouched_runStage s h f, id, id, hf ⟨s.work, s.scrr.mem⟩, Nat.le_refl _, id, id⟩

/-- A property of the state an attempt ends in. -/
def Attempt.Ends (P : State → Prop) : Attempt → Prop
  | .done s => P s
  | .raised _ s => P s

theorem decodeAndSwap_steady (c : CmdFields) {decode : State → Pass → Pass}
    (hd : ∀ s p, p.out.wf → (decode s p).out.wf) (s : State) : (decodeAndSwap c decode s).Ends (Steady s) := by
  cases ho : c.order with
  | rgb =>
    rw [decodeAndSwap_rgb ho]
    exact (steady_enter s _).trans (steady_runStage _ (by decide) (hd s))
  | bgr =>
    by_cases hc : s.CapHolds (s.scratchUsed + outSize c)
    · rw [decodeAndSwap_bgr ho decode hc]
      exact ((((steady_granted s _ _).trans (steady_enter _ _)).trans (steady_runStage _ (by decide) (hd _))).trans
        (steady_enter _ _)).trans ((steady_runStage _ (by decide) fun p => swapLoop_wf _ _ _ _).trans (steady_free _ _))
    · rw [decodeAndSwap_refused ho decode hc]
      exact steady_freeAll s

theorem directPipeline_steady (native : Order) (c : CmdFields) (s : State) : (directPipeline native c s).Ends (Steady s) := by
  unfold directPipeline
  split
  · exact (steady_enter s _).trans (steady_runStage _ (by decide) fun p => copyLoop_wf _ _ _ _)
  · exact (steady_enter s _).trans (steady_runStage _ (by decide) fun p => swapLoop_wf _ _ _ _)

theorem vendorPipeline_steady (ln : LineOffsets) (c : CmdFields) (s : State) : (vendorPipeline ln c s).Ends (Steady s) := by
  unfold vendorPipeline
  by_cases hc : s.CapHolds (s.scratchUsed + planarSize c)
  · rw [alloc_granted hc]
    have h1 := (((steady_granted s .scry (planarSize c)).trans (steady_enter _ .unpack)).trans
      (steady_runStage (out := .scry) _ (by decide) fun p =>
        unpackLoop_wf ln c.w.toNat c.h.toNat ((granted .scry (planarSize c) s).byteAt .src) (p := p)))
    have h2 := decodeAndSwap_steady c (decode := fun s => planarLoop (basesUV c.w.toNat c.h.toNat) c.w.toNat c.h.toNat (s.byteAt .scry))
      (fun s p => planarLoop_wf _ _ _ _) (((granted .scry (planarSize c) s).enter .unpack).runStage .scry
        (unpackLoop ln c.w.toNat c.h.toNat ((granted .scry (planarSize c) s).byteAt .src)))
    simp only
    revert h2
    generalize decodeAndSwap _ _ _ = a
    intro h2
    cases a with
    | done t => exact (h1.trans h2).trans (steady_free _ _)
    | raised k t => exact h1.trans h2
  · rw [alloc_refused hc]
    exact steady_freeAll s

/-- Every command is the conclusion of an attempt that is steady. -/
theorem exec_steady (i : Instr) (s : State) :
    ∃ a : Attempt, exec i s = .next (conclude i.fields.dstLen.toNat a) ∧ a.Ends (Steady s) := by
  have hrun : ∀ (cls : LayoutClass) (c : CmdFields) (pipeline : State → Attempt),
      (∀ u, (pipeline u).Ends (Steady u)) →
      ∃ a : Attempt, runCommand cls c pipeline s = conclude c.dstLen.toNat a ∧ a.Ends (Steady s) := by
    intro cls c pipeline hp
    refine ⟨_, rfl, ?_⟩
    split
    · have := hp (s.enter .check)
      revert this
      generalize pipeline _ = a
      intro h
      cases a <;> exact (steady_enter s _).trans h
    · exact steady_enter s _
  have hnext : ∀ {t : State} {n : Nat}, (∃ a : Attempt, t = conclude n a ∧ a.Ends (Steady s)) →
      ∃ a : Attempt, Host.Outcome.next (φ := Fault) (ρ := Refusal) t = .next (conclude n a) ∧ a.Ends (Steady s) :=
    fun ⟨a, h, k⟩ => ⟨a, by rw [h], k⟩
  cases i with
  | convertRGB3 c => exact hnext (hrun _ c _ (directPipeline_steady _ c))
  | convertBGR3 c => exact hnext (hrun _ c _ (directPipeline_steady _ c))
  | convertRGBP c => exact hnext (hrun _ c _ (decodeAndSwap_steady c fun s p => rgb565Loop_wf _ _ _ _))
  | convertYUYV c => exact hnext (hrun _ c _ (decodeAndSwap_steady c fun s p => yuv422Loop_wf _ _ _ _))
  | convertYVYU c => exact hnext (hrun _ c _ (decodeAndSwap_steady c fun s p => yuv422Loop_wf _ _ _ _))
  | convertUYVY c => exact hnext (hrun _ c _ (decodeAndSwap_steady c fun s p => yuv422Loop_wf _ _ _ _))
  | convertYU12 c => exact hnext (hrun _ c _ (decodeAndSwap_steady c fun s p => planarLoop_wf _ _ _ _))
  | convertYV12 c => exact hnext (hrun _ c _ (decodeAndSwap_steady c fun s p => planarLoop_wf _ _ _ _))
  | convertS501 c => exact hnext (hrun _ c _ (vendorPipeline_steady _ c))
  | convertS505 c => exact hnext (hrun _ c _ (vendorPipeline_steady _ c))
  | convertS508 c => exact hnext (hrun _ c _ (vendorPipeline_steady _ c))
  | convertUnsupported code c => exact ⟨_, rfl, steady_enter s _⟩

theorem kept_raise (k : ErrKind) (n : Nat) (s : State) : Kept s (raise k n s) := by constructor <;> simp


/-- No message is longer than 28 bytes (60_exceptions.md R246). -/
theorem messageText_length (k : ErrKind) : (messageText k).length ≤ 28 := by
  cases k <;> simp [messageText, unsupportedText, tagBytes, allocationText, invalidText]

/-- The end of a steady command keeps the invariant. -/
theorem inv_conclude {s u : State} (h : s.Sound) (hk : Steady s u) (a : Attempt) (ha : a.Ends (· = u)) (n : Nat) :
    (conclude n a).Inv := by
  cases a with
  | done t =>
    obtain rfl : t = u := ha
    exact {
      idle := succeed_idle t
      srcWf := by rw [conclude_done, succeed_src, hk.untouched.kept.src]; exact h.srcWf
      dstWf := hk.dstWf h.dstWf
      scryWf := hk.scryWf h.scryWf
      scrrWf := hk.scrrWf h.scrrWf
      junkRising := by rw [conclude_done, succeed_dstJunk, hk.untouched.dstJunk]; exact h.junkRising
      junkDrawn := by
        rw [conclude_done, succeed_dstJunk, hk.untouched.dstJunk]
        exact fun e he => Nat.lt_of_lt_of_le (h.junkDrawn e he) hk.draws
      scryDrawn := hk.scryDrawn h.scryDrawn
      scrrDrawn := hk.scrrDrawn h.scrrDrawn
      messageEnds := by rw [conclude_done, succeed_errmsg, hk.untouched.errmsg]; exact h.messageEnds
      resultNeedsDone := fun _ => rfl }
  | raised k t =>
    obtain rfl : t = u := ha
    have hd : t.draws ≤ (spoilDst n t).draws := by unfold spoilDst; split; exacts [Nat.le_refl _, Nat.le_succ _]
    have hj : t.dstJunk = s.dstJunk := hk.untouched.dstJunk
    exact {
      idle := raise_idle k n t
      srcWf := by rw [conclude_raised, raise_src, hk.untouched.kept.src]; exact h.srcWf
      dstWf := by
        rw [conclude_raised, raise_dst]; unfold spoilDst; split
        exacts [hk.dstWf h.dstWf, Memory.wf_dropBelow (hk.dstWf h.dstWf) n]
      scryWf := by rw [conclude_raised, raise_scry]; exact hk.scryWf h.scryWf
      scrrWf := by rw [conclude_raised, raise_scrr]; exact hk.scrrWf h.scrrWf
      junkRising := by
        rw [conclude_raised, raise_dstJunk]; unfold spoilDst; split
        · rw [hj]; exact h.junkRising
        · refine List.pairwise_cons.2 ⟨fun e he => ?_, ?_⟩
          · simpa using (List.mem_filter.1 he).2
          · rw [hj]; exact List.Pairwise.sublist List.filter_sublist h.junkRising
      junkDrawn := by
        have h1 : ∀ e ∈ t.dstJunk, e.2 < t.draws := by
          rw [hj]; exact fun e he => Nat.lt_of_lt_of_le (h.junkDrawn e he) hk.draws
        rw [conclude_raised, raise_dstJunk, raise_draws]; unfold spoilDst; split
        · exact h1
        · intro e he
          rcases List.mem_cons.1 he with rfl | he
          · exact Nat.lt_succ_self _
          · exact Nat.lt_succ_of_lt (h1 e (List.mem_filter.1 he).1)
      scryDrawn := by
        rw [conclude_raised, raise_scry, raise_draws]; exact Nat.lt_of_lt_of_le (hk.scryDrawn h.scryDrawn) hd
      scrrDrawn := by
        rw [conclude_raised, raise_scrr, raise_draws]; exact Nat.lt_of_lt_of_le (hk.scrrDrawn h.scrrDrawn) hd
      messageEnds := fun i hi => by
        rw [conclude_raised, raise_errmsg, messageBytes_get]
        exact List.getD_eq_default _ _ (Nat.le_trans (messageText_length k) hi)
      resultNeedsDone := fun hh => by simp [statusFailed] at hh }

/-- A command started in a sound state ends in a state that meets the invariant. -/
theorem exec_inv {i : Instr} {s t : State} (h : s.Sound) (he : exec i s = .next t) : t.Inv := by
  obtain ⟨a, ha, hs⟩ := exec_steady i s
  rw [ha] at he
  obtain rfl : conclude _ a = t := by simpa using he
  cases a with
  | done u => exact inv_conclude h hs (.done u) rfl _
  | raised k u => exact inv_conclude h hs (.raised k u) rfl _

end Sys2Proof.Machine
end

