-- ==== Sys2Proof/Laws/Confinement.lean ====
section
/-! SUPPORT. Where a command writes: no byte of DST beyond its image, and none at all before it is refused. -/

namespace Sys2Proof.Machine

/-- Where an attempt has written in DST, and which kinds a pipeline raises: complete, no byte from `n` on has
changed; raised, no byte at all, and the kind is not UnsupportedFormat. -/
def Attempt.Confined (n : Nat) (s : State) : Attempt → Prop
  | .done u => ∀ a, n ≤ a → u.byteAt .dst a = s.byteAt .dst a
  | .raised k u => u.dst = s.dst ∧ (k = .allocationFailure ∨ k = .invalidArgument)

/-- A stage that writes DST below `n`. -/
theorem confined_stage {n : Nat} {s : State} {p : Phase} {f : Pass → Pass}
    (hf : ∀ (p : Pass) a, n ≤ a → (f p).out.read a = p.out.read a) :
    (Attempt.done ((s.enter p).runStage .dst f)).Confined n s := fun a ha => by
  rw [byteAt_runStage_dst, hf _ a ha]; rfl

theorem directPipeline_confined (native : Order) (c : CmdFields) (s : State) :
    (directPipeline native c s).Confined (outSize c) s := by
  unfold directPipeline
  split
  · exact confined_stage fun p a ha => by rw [copyLoop_read, if_neg (by simp only [outSize, pixelCount] at *; omega)]
  · exact confined_stage fun p a ha => by rw [swapLoop_read, if_neg (by simp only [outSize, pixelCount] at *; omega)]

theorem decodeAndSwap_confined (c : CmdFields) {decode : State → Pass → Pass}
    (hd : ∀ s p a, outSize c ≤ a → (decode s p).out.read a = p.out.read a) (s : State) :
    (decodeAndSwap c decode s).Confined (outSize c) s := by
  cases ho : c.order with
  | rgb =>
    rw [decodeAndSwap_rgb ho]
    exact confined_stage (hd s)
  | bgr =>
    by_cases hc : s.CapHolds (s.scratchUsed + outSize c)
    · rw [decodeAndSwap_bgr ho decode hc]
      intro a ha
      rw [byteAt_swapped, if_neg (by simp only [outSize] at ha; omega)]
    · rw [decodeAndSwap_refused ho decode hc]
      exact ⟨rfl, .inl rfl⟩

theorem vendorPipeline_confined (ln : LineOffsets) {c : CmdFields} (hw : c.w.toNat % 2 = 0) (s : State) :
    (vendorPipeline ln c s).Confined (outSize c) s := by
  unfold vendorPipeline
  by_cases hc : s.CapHolds (s.scratchUsed + planarSize c)
  · rw [alloc_granted hc]
    have h := decodeAndSwap_confined c
      (decode := fun s => planarLoop (basesUV c.w.toNat c.h.toNat) c.w.toNat c.h.toNat (s.byteAt .scry))
      (fun s p a ha => by rw [planarLoop_read _ hw, if_neg (by simp only [outSize] at ha; omega)])
      (unpacked ln c s)
    change (thenFree .scry (decodeAndSwap c _ (unpacked ln c s))).Confined _ _
    revert h
    generalize decodeAndSwap _ _ _ = a
    intro h
    cases a with
    | done t =>
      intro a ha
      rw [byteAt_free, h a ha]
      simp only [State.byteAt, unpacked_dst, unpacked_dstJunk]
    | raised k t => exact ⟨by rw [h.1, unpacked_dst], h.2⟩
  · rw [alloc_refused hc]
    exact ⟨rfl, .inl rfl⟩

theorem runCommand_confined {cls : LayoutClass} {c : CmdFields} {pipeline : State → Attempt}
    (hs : ∀ u, (pipeline u).Ends (Steady u)) (hp : Valid cls c → ∀ u, (pipeline u).Confined (outSize c) u) (s : State) :
    ∃ a : Attempt, runCommand cls c pipeline s = conclude c.dstLen.toNat a ∧ a.Ends (Steady s) ∧
      a.Confined (outSize c) s ∧ (∀ u, a = .done u → outSize c ≤ c.dstLen.toNat) := by
  by_cases hv : Valid cls c
  · refine ⟨_, runCommand_valid hv pipeline s, ?_⟩
    have h1 := hs (s.enter .check)
    have h2 := hp hv (s.enter .check)
    revert h1 h2
    generalize pipeline _ = a
    intro h1 h2
    cases a with
    | done t => exact ⟨(steady_enter s _).trans h1, fun a ha => by rw [h2 a ha, State.byteAt_enter], fun _ _ => hv.dstFits⟩
    | raised k t => exact ⟨(steady_enter s _).trans h1, h2, fun _ h => by cases h⟩
  · exact ⟨.raised .invalidArgument (s.enter .check), runCommand_invalid hv pipeline s, steady_enter s _, ⟨rfl, .inr rfl⟩, fun _ h => by cases h⟩

/-- Every supported command is the conclusion of an attempt that is steady and confined. -/
theorem exec_confined (i : Instr) (hi : classOf i ≠ .unsupported) (s : State) :
    ∃ a : Attempt, exec i s = .next (conclude i.fields.dstLen.toNat a) ∧ a.Ends (Steady s) ∧
      a.Confined (outSize i.fields) s ∧ (∀ u, a = .done u → outSize i.fields ≤ i.fields.dstLen.toNat) := by
  have hnext : ∀ {cls : LayoutClass} {c : CmdFields} {pipeline : State → Attempt},
      (∀ u, (pipeline u).Ends (Steady u)) → (Valid cls c → ∀ u, (pipeline u).Confined (outSize c) u) →
      ∃ a : Attempt, Host.Outcome.next (φ := Fault) (ρ := Refusal) (runCommand cls c pipeline s) =
          .next (conclude c.dstLen.toNat a) ∧ a.Ends (Steady s) ∧
        a.Confined (outSize c) s ∧ (∀ u, a = .done u → outSize c ≤ c.dstLen.toNat) :=
    fun h1 h2 => let ⟨a, h, k⟩ := runCommand_confined h1 h2 s; ⟨a, by rw [h], k⟩
  have h422 : ∀ (pos : GroupPos) (c : CmdFields) (u : State) (p : Pass) (a : Nat), outSize c ≤ a →
      (yuv422Loop pos c.w.toNat c.h.toNat (u.byteAt .src) p).out.read a = p.out.read a := by
    intro pos c u p a ha
    rw [yuv422Loop_read, if_neg]
    have h1 : c.h.toNat * (2 * (c.w.toNat / 2)) ≤ c.h.toNat * c.w.toNat := Nat.mul_le_mul_left _ (by omega)
    have h2 : c.h.toNat * (2 * (c.w.toNat / 2)) = 2 * (c.h.toNat * (c.w.toNat / 2)) := by ring
    have h3 := Nat.mul_comm c.h.toNat c.w.toNat
    simp only [outSize] at ha
    omega
  have h420 : ∀ (pl : PlaneBases) (c : CmdFields), Valid .planarYuv420 c → ∀ (u : State) (p : Pass) (a : Nat), outSize c ≤ a →
      (planarLoop pl c.w.toNat c.h.toNat (u.byteAt .src) p).out.read a = p.out.read a := by
    intro pl c hv u p a ha
    rw [planarLoop_read _ (hv.even (.inr (.inl rfl))).1, if_neg (by simp only [outSize] at ha; omega)]
  cases i with
  | convertRGB3 c => exact hnext (directPipeline_steady _ c) fun _ => directPipeline_confined _ c
  | convertBGR3 c => exact hnext (directPipeline_steady _ c) fun _ => directPipeline_confined _ c
  | convertRGBP c =>
    exact hnext (decodeAndSwap_steady c fun s p => rgb565Loop_wf _ _ _ _) fun _ => decodeAndSwap_confined c fun s p a ha => by
      rw [rgb565Loop_read, if_neg (by simp only [outSize] at ha; omega)]
  | convertYUYV c => exact hnext (decodeAndSwap_steady c fun s p => yuv422Loop_wf _ _ _ _) fun _ => decodeAndSwap_confined c (h422 _ c)
  | convertYVYU c => exact hnext (decodeAndSwap_steady c fun s p => yuv422Loop_wf _ _ _ _) fun _ => decodeAndSwap_confined c (h422 _ c)
  | convertUYVY c => exact hnext (decodeAndSwap_steady c fun s p => yuv422Loop_wf _ _ _ _) fun _ => decodeAndSwap_confined c (h422 _ c)
  | convertYU12 c => exact hnext (decodeAndSwap_steady c fun s p => planarLoop_wf _ _ _ _) fun hv => decodeAndSwap_confined c (h420 _ c hv)
  | convertYV12 c => exact hnext (decodeAndSwap_steady c fun s p => planarLoop_wf _ _ _ _) fun hv => decodeAndSwap_confined c (h420 _ c hv)
  | convertS501 c => exact hnext (vendorPipeline_steady _ c) fun hv => vendorPipeline_confined _ (hv.even (.inr (.inr rfl))).1
  | convertS505 c => exact hnext (vendorPipeline_steady _ c) fun hv => vendorPipeline_confined _ (hv.even (.inr (.inr rfl))).1
  | convertS508 c => exact hnext (vendorPipeline_steady _ c) fun hv => vendorPipeline_confined _ (hv.even (.inr (.inr rfl))).1
  | convertUnsupported code c => exact absurd rfl hi

end Sys2Proof.Machine
end

