-- ==== Sys2Proof/Laws/PerInstr.lean ====
section
/-! SUPPORT. Facts about the syntax of every command, one lemma for each constructor. -/

/-- The code of a well-formed command selects its own row of the registry (30_encoding.md R84, R87). -/
def Sys2Proof.Laws.Registered.Statement (i : Sys2Proof.Instr) : Prop :=
  Sys2Proof.WellFormed i = true → Sys2Proof.selectRow i.code i.fields = i

namespace Sys2Proof.Laws.Registered

theorem convertRGB3 (c : CmdFields) : Statement (.convertRGB3 c) := fun _ => rfl
theorem convertBGR3 (c : CmdFields) : Statement (.convertBGR3 c) := fun _ => rfl
theorem convertRGBP (c : CmdFields) : Statement (.convertRGBP c) := fun _ => rfl
theorem convertYUYV (c : CmdFields) : Statement (.convertYUYV c) := fun _ => rfl
theorem convertYVYU (c : CmdFields) : Statement (.convertYVYU c) := fun _ => rfl
theorem convertUYVY (c : CmdFields) : Statement (.convertUYVY c) := fun _ => rfl
theorem convertYU12 (c : CmdFields) : Statement (.convertYU12 c) := fun _ => rfl
theorem convertYV12 (c : CmdFields) : Statement (.convertYV12 c) := fun _ => rfl
theorem convertS501 (c : CmdFields) : Statement (.convertS501 c) := fun _ => rfl
theorem convertS505 (c : CmdFields) : Statement (.convertS505 c) := fun _ => rfl
theorem convertS508 (c : CmdFields) : Statement (.convertS508 c) := fun _ => rfl
theorem convertUnsupported (code : Word) (c : CmdFields) : Statement (.convertUnsupported code c) := by
  intro h
  have hn : registry.find? (fun row => row.code == code) = none := by
    rw [List.find?_eq_none]
    simp [WellFormed, supportedCodes] at h
    intro x hx
    simp [registry] at hx
    rcases hx with rfl | rfl | rfl | rfl | rfl | rfl | rfl | rfl | rfl | rfl | rfl <;> simp <;> tauto
  simp [selectRow, Instr.code, Instr.fields, hn]

end Sys2Proof.Laws.Registered
end

