-- ==== Sys2Proof/Laws/Decode.lean ====
section
/-! SUPPORT. The laws of the command words: words and their bytes, the registry, and where a byte sequence
holds a command. -/

namespace Sys2Proof

/-- A word is put together again from its four bytes. -/
theorem wordOfBytes_extract (w : Word) :
    wordOfBytes (w.extractLsb' 0 8) (w.extractLsb' 8 8) (w.extractLsb' 16 8) (w.extractLsb' 24 8) = w := by
  apply BitVec.eq_of_getLsbD_eq
  intro i hi
  simp only [wordOfBytes, BitVec.getLsbD_append, BitVec.getLsbD_extractLsb']
  by_cases h1 : i < 8
  · simp [h1]
  · by_cases h2 : i < 16
    · have : i - 8 < 8 := by omega
      have e : 8 + (i - 8) = i := by omega
      simp [h1, this, e]
    · by_cases h3 : i < 24
      · have h4 : ¬ i - 8 < 8 := by omega
        have h5 : i - 8 - 8 < 8 := by omega
        have e : 16 + (i - 8 - 8) = i := by omega
        simp [h1, h4, h5, e]
      · have h4 : ¬ i - 8 < 8 := by omega
        have h5 : ¬ i - 8 - 8 < 8 := by omega
        have h6 : i - 8 - 8 - 8 < 8 := by omega
        have e : 24 + (i - 8 - 8 - 8) = i := by omega
        simp [h1, h4, h5, h6, e]

/-- Taking the word that stands at the front of a byte sequence. -/
theorem takeWord_bytes (w : Word) (r : List Byte) : takeWord (bytesOfWord w ++ r) = some (w, r) := by
  simp [takeWord, bytesOfWord, wordOfBytes_extract]

/-- Taking the six words that stand at the front of a byte sequence. -/
theorem takeWords_bytes (ws : CmdWords) (r : List Byte) : takeWords (bytesOfWords ws ++ r) = some (ws, r) := by
  simp only [takeWords, bytesOfWords, List.append_assoc, takeWord_bytes, Option.bind_eq_bind, Option.bind_some]
  rfl

/-- Decoding bytes is decoding the words they lay out. -/
theorem decode_bytesOfWords (ws : CmdWords) (r : List Byte) :
    decode (bytesOfWords ws ++ r) = match decodeWords ws with | .ok i _ => .ok i r | .reject e => .reject e := by
  cases h : decodeWords ws <;> simp [decode, takeWords_bytes, h]

/-- START and ORDER of a CTRL value (10_state.md R26). -/
theorem startBit_ctrlWord (o : Order) : startBit (ctrlWord true o) = true := by cases o <;> rfl
theorem orderOfBit_ctrlWord (b : Bool) (o : Order) : orderOfBit ((ctrlWord b o).getLsbD 0) = o := by cases b <;> cases o <;> rfl

/-- The registry gives a well-formed command for its code (30_encoding.md R84). -/
theorem selectRow_of_wellFormed (i : Instr) : WellFormed i = true → selectRow i.code i.fields = i := by
  cases i
  case convertRGB3 c => exact Laws.Registered.convertRGB3 c
  case convertBGR3 c => exact Laws.Registered.convertBGR3 c
  case convertRGBP c => exact Laws.Registered.convertRGBP c
  case convertYUYV c => exact Laws.Registered.convertYUYV c
  case convertYVYU c => exact Laws.Registered.convertYVYU c
  case convertUYVY c => exact Laws.Registered.convertUYVY c
  case convertYU12 c => exact Laws.Registered.convertYU12 c
  case convertYV12 c => exact Laws.Registered.convertYV12 c
  case convertS501 c => exact Laws.Registered.convertS501 c
  case convertS505 c => exact Laws.Registered.convertS505 c
  case convertS508 c => exact Laws.Registered.convertS508 c
  case convertUnsupported code c => exact Laws.Registered.convertUnsupported code c

/-- Whatever the registry gives is well formed, with the code and the fields asked for. -/
theorem selectRow_cases (code : Word) (c : CmdFields) : WellFormed (selectRow code c) = true ∧ (selectRow code c).code = code ∧ (selectRow code c).fields = c := by
  unfold selectRow
  split
  · next row h =>
    have h1 := List.find?_some h
    have h2 := List.mem_of_find?_eq_some h
    simp [registry] at h2
    simp at h1
    rcases h2 with rfl | rfl | rfl | rfl | rfl | rfl | rfl | rfl | rfl | rfl | rfl <;> exact ⟨rfl, h1, rfl⟩
  · next h =>
    refine ⟨?_, rfl, rfl⟩
    simp [WellFormed, supportedCodes]
    simp [registry, List.find?_eq_none] at h
    tauto

/-- The four bytes of a word put together from four bytes. -/
theorem extract_wordOfBytes (b0 b1 b2 b3 : Byte) :
    (wordOfBytes b0 b1 b2 b3).extractLsb' 0 8 = b0 ∧ (wordOfBytes b0 b1 b2 b3).extractLsb' 8 8 = b1 ∧
    (wordOfBytes b0 b1 b2 b3).extractLsb' 16 8 = b2 ∧ (wordOfBytes b0 b1 b2 b3).extractLsb' 24 8 = b3 := by
  refine ⟨?_, ?_, ?_, ?_⟩ <;> apply BitVec.eq_of_getLsbD_eq <;> intro i hi <;>
    simp only [wordOfBytes, BitVec.getLsbD_append, BitVec.getLsbD_extractLsb', hi, decide_true, Bool.true_and]
  · simp [hi]
  · have h1 : ¬ 8 + i < 8 := by omega
    have e : 8 + i - 8 = i := by omega
    simp [h1, e, hi]
  · have h1 : ¬ 16 + i < 8 := by omega
    have h2 : ¬ 16 + i - 8 < 8 := by omega
    have e : 16 + i - 8 - 8 = i := by omega
    simp [h1, h2, e, hi]
  · have h1 : ¬ 24 + i < 8 := by omega
    have h2 : ¬ 24 + i - 8 < 8 := by omega
    have h3 : ¬ 24 + i - 8 - 8 < 8 := by omega
    have e : 24 + i - 8 - 8 - 8 = i := by omega
    simp [h1, h2, h3, e]

/-- Laying out a word put together from four bytes. -/
theorem bytes_word (b0 b1 b2 b3 : Byte) : bytesOfWord (wordOfBytes b0 b1 b2 b3) = [b0, b1, b2, b3] := by
  obtain ⟨h0, h1, h2, h3⟩ := extract_wordOfBytes b0 b1 b2 b3
  rw [bytesOfWord, h0, h1, h2, h3]

/-- Four bytes or more begin with a word. -/
theorem takeWord_some {bs : List Byte} (h : 4 ≤ bs.length) : ∃ w, takeWord bs = some (w, bs.drop 4) ∧ bytesOfWord w = bs.take 4 := by
  match bs, h with
  | b0 :: b1 :: b2 :: b3 :: r, _ => exact ⟨_, rfl, bytes_word b0 b1 b2 b3⟩

theorem takeWord_none {bs : List Byte} (h : bs.length < 4) : takeWord bs = none := by
  match bs, h with
  | [], _ => rfl
  | [_], _ => rfl
  | [_, _], _ => rfl
  | [_, _, _], _ => rfl

theorem takeWord_none_or (bs : List Byte) : (bs.length < 4 ∧ takeWord bs = none) ∨ (4 ≤ bs.length ∧ ∃ w, takeWord bs = some (w, bs.drop 4) ∧ bytesOfWord w = bs.take 4) := by
  by_cases h : bs.length < 4
  · exact .inl ⟨h, takeWord_none h⟩
  · exact .inr ⟨by omega, takeWord_some (by omega)⟩

/-- Fewer than 24 bytes hold no command; 24 or more begin with six words. -/
theorem takeWords_cases (bs : List Byte) : (bs.length < 24 ∧ takeWords bs = none) ∨
   (24 ≤ bs.length ∧ ∃ ws, takeWords bs = some (ws, bs.drop 24) ∧ bytesOfWord ws.w5 = (bs.drop 20).take 4) := by
  simp only [takeWords, Option.bind_eq_bind]
  rcases takeWord_none_or bs with ⟨h, e⟩ | ⟨h, w0, e, -⟩
  · exact .inl ⟨by omega, by rw [e]; rfl⟩
  rw [e, Option.bind_some]
  rcases takeWord_none_or (bs.drop 4) with ⟨h, e⟩ | ⟨h, w1, e, -⟩
  · simp at h; exact .inl ⟨by omega, by simp only [e]; rfl⟩
  simp only [e, Option.bind_some, List.drop_drop]
  rcases takeWord_none_or (bs.drop (4 + 4)) with ⟨h, e⟩ | ⟨h, w2, e, -⟩
  · simp at h; exact .inl ⟨by omega, by simp only [e]; rfl⟩
  simp only [e, Option.bind_some, List.drop_drop]
  rcases takeWord_none_or (bs.drop (4 + 4 + 4)) with ⟨h, e⟩ | ⟨h, w3, e, -⟩
  · simp at h; exact .inl ⟨by omega, by simp only [e]; rfl⟩
  simp only [e, Option.bind_some, List.drop_drop]
  rcases takeWord_none_or (bs.drop (4 + 4 + 4 + 4)) with ⟨h, e⟩ | ⟨h, w4, e, -⟩
  · simp at h; exact .inl ⟨by omega, by simp only [e]; rfl⟩
  simp only [e, Option.bind_some, List.drop_drop]
  rcases takeWord_none_or (bs.drop (4 + 4 + 4 + 4 + 4)) with ⟨h, e⟩ | ⟨h, w5, e, e5⟩
  · simp at h; exact .inl ⟨by omega, by simp only [e]; rfl⟩
  simp only [e, Option.bind_some, List.drop_drop]
  simp at h
  exact .inr ⟨by omega, _, rfl, e5⟩

end Sys2Proof
end

