-- ==== Sys2Proof/Laws/Host.lean ====
section
/-! SUPPORT. What a step does for each access of the host, and what a run does, once. -/

namespace Sys2Proof.Machine

/-! ### The message -/

/-- The bytes of ERRMSG holding a text. -/
theorem messageBytes_toList {text : List Byte} (h : text.length ≤ 32) :
    (messageBytes text).toList = text ++ List.replicate (32 - text.length) 0 := by
  apply List.ext_getElem
  · simp; omega
  · intro i h1 h2
    have h3 : i < 32 := by simpa using h1
    rw [Vector.getElem_toList]
    simp only [messageBytes, Vector.getElem_ofFn]
    by_cases h4 : i < text.length
    · rw [List.getElem_append_left h4]; simp [List.getD, h4]
    · rw [List.getElem_append_right (by omega)]; simp [List.getD, h4]

/-- Reading a message as a string gives its text when no character is 0x00. -/
theorem errorText_messageBytes {text : List Byte} (h : text.length < 32) (hz : ∀ b ∈ text, b ≠ 0) :
    errorText (messageBytes text) = text := by
  rw [errorText, messageBytes_toList (by omega), List.takeWhile_append_of_pos (by simpa using hz)]
  obtain ⟨n, hn⟩ : ∃ n, 32 - text.length = n + 1 := ⟨31 - text.length, by omega⟩
  simp [hn, List.replicate_succ]

/-! ### Steps -/

theorem orderOfBit_eq (b : Bool) : orderOfBit b = if b then .bgr else .rgb := by cases b <;> rfl

/-- The step of a START write. -/
theorem step_start {s : State} {v : Word} {rest : List HostOp} (hb : s.status.busy = false)
    (hs : s.bus = .wr 0x14 v :: rest) (hv : startBit v = true) :
    step s = startCommand { s with bus := rest, order := orderOfBit (v.getLsbD 0) } := by
  simp [step, stepHost, hs, hostAccess, hostWrite, hb, writeCtrl, hv]

/-- The command that the latches hold. -/
theorem latchedInstr_eq (l : Latch) : latchedInstr l = selectRow l.code
      ⟨l.w, l.h, l.srcLen, l.dstLen, l.order⟩ := by
  simp only [latchedInstr, latchedWords, fieldsOfWords, orderOfBit_ctrlWord]

/-- A run whose first step answers a state goes on from it. -/
theorem run_succ (M : Host.Core) {s t : M.State} (h : M.step s = .next t) (k : Nat) :
    M.run (k + 1) s = M.run k t := by
  rw [Host.Core.run.eq_2, h]

/-- A run of one step is that step. -/
theorem run_one (M : Host.Core) (s : M.State) : M.run 1 s = M.step s := by
  rw [Host.Core.run.eq_2]
  cases M.step s <;> rfl

theorem core_run_succ {s t : State} (h : step s = .next t) (k : Nat) :
    Sys2Proof.core.run (k + 1) s = Sys2Proof.core.run k t := run_succ Sys2Proof.core h k

theorem core_run_one (s : State) : Sys2Proof.core.run 1 s = step s := run_one Sys2Proof.core s

/-- The step of a write to a register other than CTRL. -/
theorem step_write {s : State} {off : Nat} {v : Word} {rest : List HostOp} (hb : s.status.busy = false)
    (hs : s.bus = .wr off v :: rest) (h4 : off % 4 = 0) (hc : off ≠ 0x14) :
    step s = .next (writeReg off v { s with bus := rest }) := by
  simp [step, stepHost, hs, hostAccess, hostWrite, h4, hc, hb]


/-- The five command registers. -/
theorem writeReg_format (v : Word) (s : State) : writeReg 0x00 v s = { s with format := v } := rfl
theorem writeReg_width (v : Word) (s : State) : writeReg 0x04 v s = { s with width := v } := by simp [writeReg]
theorem writeReg_height (v : Word) (s : State) : writeReg 0x08 v s = { s with height := v } := by simp [writeReg]
theorem writeReg_srcLen (v : Word) (s : State) : writeReg 0x0C v s = { s with srcLen := v } := by simp [writeReg]
theorem writeReg_dstLen (v : Word) (s : State) : writeReg 0x10 v s = { s with dstLen := v } := by simp [writeReg]

end Sys2Proof.Machine
end

