-- ==== Sys2Proof/Laws/Unpack.lean ====
section
/-! SUPPORT. The planar intermediate line by line, the source lines it comes from, and bytes from pixels. -/

namespace Sys2Proof.Machine

/-- Each byte of a group stands in one of its four lines. -/
theorem lines_cover {w : Nat} (hw : w % 2 = 0) {ln : LineOffsets} (hl : ln = linesA w ∨ ln = linesB w ∨ ln = linesC w) {x : Nat} (hx : x < 3 * w) :
    (∃ k, k < w ∧ (x = ln.y0 + k ∨ x = ln.y1 + k)) ∨ (∃ k, k < w / 2 ∧ (x = ln.u + k ∨ x = ln.v + k)) := by
  obtain ⟨m, rfl⟩ : ∃ m, w = 2 * m := ⟨w / 2, by omega⟩
  have h3 : 3 * (2 * m) / 2 = 3 * m := by omega
  have h5 : 5 * (2 * m) / 2 = 5 * m := by omega
  rcases hl with rfl | rfl | rfl
  · simp only [linesA, h3, h5]
    by_cases h1 : x < 2 * m
    · exact .inl ⟨x, h1, .inl (by omega)⟩
    by_cases h2 : x < 3 * m
    · exact .inr ⟨x - 2 * m, by omega, .inl (by omega)⟩
    by_cases h4 : x < 5 * m
    · exact .inl ⟨x - 3 * m, by omega, .inr (by omega)⟩
    · exact .inr ⟨x - 5 * m, by omega, .inr (by omega)⟩
  · simp only [linesB, h5]
    by_cases h1 : x < 2 * m
    · exact .inl ⟨x, h1, .inl (by omega)⟩
    by_cases h2 : x < 4 * m
    · exact .inl ⟨x - 2 * m, by omega, .inr (by omega)⟩
    by_cases h4 : x < 5 * m
    · exact .inr ⟨x - 4 * m, by omega, .inl (by omega)⟩
    · exact .inr ⟨x - 5 * m, by omega, .inr (by omega)⟩
  · simp only [linesC, h3]
    by_cases h1 : x < 2 * m
    · exact .inl ⟨x, h1, .inl (by omega)⟩
    by_cases h2 : x < 3 * m
    · exact .inr ⟨x - 2 * m, by omega, .inl (by omega)⟩
    by_cases h4 : x < 4 * m
    · exact .inr ⟨x - 3 * m, by omega, .inr (by omega)⟩
    · exact .inl ⟨x - 4 * m, by omega, .inr (by omega)⟩

/-- The lines lie inside their group. -/
theorem lines_inside {w : Nat} (hw : w % 2 = 0) {ln : LineOffsets} (hl : ln = linesA w ∨ ln = linesB w ∨ ln = linesC w) :
    ln.y0 + w ≤ 3 * w ∧ ln.y1 + w ≤ 3 * w ∧ ln.u + w / 2 ≤ 3 * w ∧ ln.v + w / 2 ≤ 3 * w := by
  rcases hl with rfl | rfl | rfl <;> simp only [linesA, linesB, linesC] <;> omega

/-- A line of a group lies inside the frame. -/
theorem line_inside {w h g o n k : Nat} (hh : h % 2 = 0) (hg : g < h / 2) (ho : o + n ≤ 3 * w) (hk : k < n) :
    3 * w * g + o + k < 3 * (w * h) / 2 := by
  have hsz : 3 * (w * h) / 2 = 3 * w * (h / 2) := by
    obtain ⟨n, rfl⟩ : ∃ n, h = 2 * n := ⟨h / 2, by omega⟩
    have : w * (2 * n) = 2 * (w * n) := by ring
    rw [this, show 2 * n / 2 = n by omega, Nat.mul_assoc]; omega
  have h1 : 3 * w * (g + 1) ≤ 3 * w * (h / 2) := Nat.mul_le_mul_left _ hg
  rw [Nat.mul_succ] at h1
  omega

/-- Each byte of the intermediate comes from one byte of the source frame. -/
theorem unpackByte_source {w h : Nat} (hw : w % 2 = 0) (hh : h % 2 = 0) {ln : LineOffsets}
    (hl : ln = linesA w ∨ ln = linesB w ∨ ln = linesC w) {a : Nat} (ha : a < 3 * (w * h) / 2) :
    ∃ b, b < 3 * (w * h) / 2 ∧ ∀ inp, unpackByte ln inp w h a = rebias (inp b) := by
  obtain ⟨i0, i1, i2, i3⟩ := lines_inside hw hl
  have hwpos : 0 < w := by
    rcases Nat.eq_zero_or_pos w with rfl | h0
    · simp at ha
    · exact h0
  by_cases h1 : a < w * h
  · have hrow : a / w < h := Nat.div_lt_of_lt_mul h1
    have hk : a % w < w := Nat.mod_lt _ hwpos
    by_cases h2 : a / w % 2 = 0
    · exact ⟨_, line_inside (g := a / w / 2) hh (by omega) i0 hk, fun inp => by rw [unpackByte, if_pos h1, if_pos h2]⟩
    · exact ⟨_, line_inside (g := a / w / 2) hh (by omega) i1 hk, fun inp => by rw [unpackByte, if_pos h1, if_neg h2]⟩
  · have hm : 0 < w / 2 := by omega
    have hq : 5 * (w * h) / 4 = w * h + w / 2 * (h / 2) ∧ 3 * (w * h) / 2 = w * h + 2 * (w / 2 * (h / 2)) := by
      obtain ⟨m, rfl⟩ : ∃ m, w = 2 * m := ⟨w / 2, by omega⟩
      obtain ⟨n, rfl⟩ : ∃ n, h = 2 * n := ⟨h / 2, by omega⟩
      have : 2 * m * (2 * n) = 4 * (m * n) := by ring
      rw [this, show 2 * m / 2 = m by omega, show 2 * n / 2 = n by omega]
      omega
    by_cases h2 : a < 5 * (w * h) / 4
    · have hk : (a - w * h) % (w / 2) < w / 2 := Nat.mod_lt _ hm
      exact ⟨_, line_inside (g := (a - w * h) / (w / 2)) hh (Nat.div_lt_of_lt_mul (by omega)) i2 hk,
        fun inp => by rw [unpackByte, if_neg h1, if_pos h2]⟩
    · have hk : (a - 5 * (w * h) / 4) % (w / 2) < w / 2 := Nat.mod_lt _ hm
      exact ⟨_, line_inside (g := (a - 5 * (w * h) / 4) / (w / 2)) hh (Nat.div_lt_of_lt_mul (by omega)) i3 hk,
        fun inp => by rw [unpackByte, if_neg h1, if_neg h2]⟩

theorem rebias_inj {a b : Byte} (h : rebias a = rebias b) : a = b := by
  have := congrArg rebias h
  simpa [rebias, BitVec.xor_assoc] using this

/-- States that show the same pixels hold the same bytes. -/
theorem bytes_of_pixelAt {s t : State} {sp : Space} {o : Order} {n : Nat}
    (h : ∀ q, q < n → s.pixelAt sp o q = t.pixelAt sp o q) {a : Nat} (ha : a < 3 * n) : s.byteAt sp a = t.byteAt sp a := by
  have h1 := h (a / 3) (by omega)
  obtain hj | hj | hj : a = 3 * (a / 3) ∨ a = 3 * (a / 3) + 1 ∨ a = 3 * (a / 3) + 2 := by omega
  all_goals
    rw [hj]
    cases o <;> simp only [State.pixelAt, Pixel.mk.injEq] at h1 <;> first | exact h1.1 | exact h1.2.1 | exact h1.2.2

end Sys2Proof.Machine
end

