-- ==== Sys2Proof/Tests/Slice0.lean ====
section
/-! SUPPORT. The model's own tests. Every expected result stands in the spec: 95_test_vectors.md, named by its
vector, or the rule named. Then a witness for the hypotheses of every statement that has some. -/

namespace Sys2Proof.Tests

open Sys2Proof Sys2Proof.Machine

/-! ### Helpers -/

/-- The reset state with a source frame and a SCRATCH_CAP. -/
def frame (src : List Byte) (cap : Option Nat) : State :=
  { State.reset with src := State.reset.src.writeList 0 src, params := ⟨cap, .zeroFill⟩ }

/-- The first `n` bytes of a space after a step that went on. -/
def bytesAfter (sp : Space) (n : Nat) : Host.Outcome State Fault Refusal → List Byte
  | .next s => (List.range n).map (s.byteAt sp)
  | _ => []

/-- R, G, B after a step that went on. -/
def pixelAfter : Host.Outcome State Fault Refusal → Option Pixel
  | .next s => some s.work.px
  | _ => none

/-- RESULT and the message after a step that went on. -/
def resultAfter : Host.Outcome State Fault Refusal → Option (BitVec 2 × List Byte)
  | .next s => some (s.status.result, errorText s.errmsg)
  | _ => none

/-- What the last access answered, after a run that went on. -/
def replyAfter : Host.Outcome State Fault Refusal → Reply
  | .next s => s.reply
  | _ => .nothing

/-! ### Well-formedness: the one ill-formed shape is the default row under a registered code -/

theorem test_illFormed_unsupported :
    supportedCodes.all (fun code => !WellFormed (.convertUnsupported code ⟨2, 2, 8, 12, .rgb⟩)) = true := by decide
theorem test_wellFormed_unsupported : WellFormed (.convertUnsupported 0x34363248 ⟨640, 480, 0, 0, .rgb⟩) = true := by decide

/-! ### Decoding: words written out from 30_encoding.md R81, R84 -/

theorem test_decode_rgb3 : decodeWords ⟨0x33424752, 2, 1, 6, 6, 2⟩ = .ok (.convertRGB3 ⟨2, 1, 6, 6, .rgb⟩) [] := by decide
theorem test_decode_bgr3 : decodeWords ⟨0x33524742, 2, 1, 6, 7, 3⟩ = .ok (.convertBGR3 ⟨2, 1, 6, 7, .bgr⟩) [] := by decide
theorem test_decode_rgbp : decodeWords ⟨0x50424752, 1, 3, 6, 9, 2⟩ = .ok (.convertRGBP ⟨1, 3, 6, 9, .rgb⟩) [] := by decide
theorem test_decode_yuyv : decodeWords ⟨0x56595559, 2, 4, 16, 24, 3⟩ = .ok (.convertYUYV ⟨2, 4, 16, 24, .bgr⟩) [] := by decide
theorem test_decode_yvyu : decodeWords ⟨0x55595659, 2, 4, 16, 24, 2⟩ = .ok (.convertYVYU ⟨2, 4, 16, 24, .rgb⟩) [] := by decide
theorem test_decode_uyvy : decodeWords ⟨0x59565955, 2, 4, 16, 24, 2⟩ = .ok (.convertUYVY ⟨2, 4, 16, 24, .rgb⟩) [] := by decide
theorem test_decode_yu12 : decodeWords ⟨0x32315559, 2, 4, 12, 24, 2⟩ = .ok (.convertYU12 ⟨2, 4, 12, 24, .rgb⟩) [] := by decide
theorem test_decode_yv12 : decodeWords ⟨0x32315659, 2, 4, 12, 24, 3⟩ = .ok (.convertYV12 ⟨2, 4, 12, 24, .bgr⟩) [] := by decide
theorem test_decode_s501 : decodeWords ⟨0x31303553, 2, 4, 12, 24, 2⟩ = .ok (.convertS501 ⟨2, 4, 12, 24, .rgb⟩) [] := by decide
theorem test_decode_s505 : decodeWords ⟨0x35303553, 2, 4, 12, 24, 3⟩ = .ok (.convertS505 ⟨2, 4, 12, 24, .bgr⟩) [] := by decide
theorem test_decode_s508 : decodeWords ⟨0x38303553, 2, 4, 12, 24, 2⟩ = .ok (.convertS508 ⟨2, 4, 12, 24, .rgb⟩) [] := by decide
/-- MJPG (V46-4), and YUYV in lower case (V46-3): a code is compared exactly. -/
theorem test_decode_unsupported :
    decodeWords ⟨0x47504A4D, 0, 0, 0, 0, 3⟩ = .ok (.convertUnsupported 0x47504A4D ⟨0, 0, 0, 0, .bgr⟩) [] ∧
    decodeWords ⟨0x76797579, 2, 2, 8, 12, 2⟩ = .ok (.convertUnsupported 0x76797579 ⟨2, 2, 8, 12, .rgb⟩) [] := by decide

/-- The codes from their characters (30_encoding.md R82, R84): 'Y','U','Y','V'; 'H','2','6','4'. -/
theorem test_fourcc : fourcc 0x59 0x55 0x59 0x56 = 0x56595559 ∧ fourcc 0x48 0x32 0x36 0x34 = 0x34363248 ∧
    tag4 0x34363248 = [0x48, 0x32, 0x36, 0x34, 0x00] := by decide

/-- 24 bytes in register order (program P1), and the two rejections (30_encoding.md R88, R89). -/
theorem test_decode_bytes :
    decode [0x59, 0x55, 0x59, 0x56, 2, 0, 0, 0, 2, 0, 0, 0, 8, 0, 0, 0, 12, 0, 0, 0, 2, 0, 0, 0, 0xEE] =
      .ok (.convertYUYV ⟨2, 2, 8, 12, .rgb⟩) [0xEE] ∧
    decode [0x59, 0x55, 0x59, 0x56] = .reject .tooShort ∧
    decode [0x59, 0x55, 0x59, 0x56, 2, 0, 0, 0, 2, 0, 0, 0, 8, 0, 0, 0, 12, 0, 0, 0, 1, 0, 0, 0] = .reject .startClear := by
  decide

/-- The table's numbering: W is bits 63..32, CTRL is bits 191..160 (spec/opcode_table.json). -/
theorem test_decodeTableWord :
    decodeTableWord 192 (0x59565955 + 0x3 * 2 ^ 32 + 0x3 * 2 ^ 160) = some (.convertUYVY ⟨3, 0, 0, 0, .bgr⟩) ∧
    decodeTableWord 32 0x38303553 = some (.convertS508 ⟨0, 0, 0, 0, .rgb⟩) := by decide +kernel

/-- The placed word runs next: a frame of no pixels is an invalid argument (46_dispatcher.md R213). -/
theorem test_withFetchWord :
    resultAfter (step (State.reset.withFetchWord 32 0x38303553)) = some (3, invalidText) ∧
    resultAfter (step (State.reset.withFetchWord 192 (0x34363248 + 2 ^ 161))) =
      some (1, unsupportedText ++ [0x48, 0x32, 0x36, 0x34]) := by decide +kernel

/-! ### Arithmetic (vectors V40c, V40t, V40, V42, V45-1) -/

theorem test_clip : [-258, -10, -1, 0, 200, 255, 256, 300].map clip = [0, 0, 0, 0, 200, 255, 255, 255] := by decide

/-- V40t-2, -3, -6, -8, -17: the minima, the maxima, and floors of negative values. -/
theorem test_chromaTerms :
    chromaTerms 0 0 = ⟨-258, -144, -192⟩ ∧ chromaTerms 255 255 = ⟨255, 142, 190⟩ ∧
    chromaTerms 127 128 = ⟨-3, -1, 0⟩ ∧ chromaTerms 128 127 = ⟨0, -1, -2⟩ ∧
    chromaTerms 54 34 = ⟨-150, -99, -141⟩ := by decide

/-- V40-6, -7, -10, -23. -/
theorem test_pixel :
    pixel 0 (chromaTerms 0 0) = ⟨0, 144, 0⟩ ∧ pixel 255 (chromaTerms 255 255) = ⟨255, 113, 255⟩ ∧
    pixel 41 (chromaTerms 240 110) = ⟨14, 13, 255⟩ ∧ pixel 255 (chromaTerms 0 128) = ⟨255, 255, 0⟩ := by decide

/-- V42-2, -4, -6, -7. -/
theorem test_unpack565 :
    unpack565 .zeroFill 0xFFFF = ⟨0xF8, 0xFC, 0xF8⟩ ∧ unpack565 .zeroFill 0x07E0 = ⟨0x00, 0xFC, 0x00⟩ ∧
    unpack565 .zeroFill 0x1234 = ⟨0x10, 0x44, 0xA0⟩ ∧ unpack565 .zeroFill 0xABCD = ⟨0xA8, 0x78, 0x68⟩ := by decide

/-- V45-1. -/
theorem test_rebias : [0x00, 0x7F, 0x80, 0xFF, 0x5A].map rebias = [0x80, 0xFF, 0x00, 0x7F, 0xDA] := by decide

/-! ### The commands -/

/-- V41-6: an odd width; red and blue change places; R, G, B hold the last pixel, red in R (10_state.md R30). -/
theorem test_rgb3_swap :
    let r := exec (.convertRGB3 ⟨3, 1, 9, 9, .bgr⟩) (frame [1, 2, 3, 4, 5, 6, 7, 8, 9] (some 0))
    bytesAfter .dst 9 r = [3, 2, 1, 6, 5, 4, 9, 8, 7] ∧ pixelAfter r = some ⟨7, 8, 9⟩ := by decide +kernel
/-- V46-8: 3*W*H is not reduced modulo 2^32. -/
theorem test_rgb3_noWrap : resultAfter (exec (.convertRGB3 ⟨65536, 65536, 0xFFFFFFFF, 0xFFFFFFFF, .rgb⟩) (frame [] none))
    = some (3, invalidText) := by decide +kernel
/-- V41-3. -/
theorem test_bgr3_copy :
    let r := exec (.convertBGR3 ⟨2, 1, 6, 6, .bgr⟩) (frame [1, 2, 3, 4, 5, 6] (some 0))
    bytesAfter .dst 6 r = [1, 2, 3, 4, 5, 6] ∧ pixelAfter r = some ⟨6, 5, 4⟩ := by decide +kernel
/-- 41_direct_swap.md R134's example, and the pixel in R, G, B (10_state.md R30): B is the source's first byte. -/
theorem test_bgr3_swap :
    let r := exec (.convertBGR3 ⟨1, 1, 3, 3, .rgb⟩) (frame [0xFF, 0x00, 0x80] none)
    bytesAfter .dst 3 r = [0x80, 0x00, 0xFF] ∧ pixelAfter r = some ⟨0x80, 0x00, 0xFF⟩ := by decide +kernel
/-- V42-9: through SCRR, with exactly the scratch it needs. -/
theorem test_rgbp_bgr : bytesAfter .dst 12 (exec (.convertRGBP ⟨2, 2, 8, 12, .bgr⟩)
      (frame [0x00, 0xF8, 0xE0, 0x07, 0x1F, 0x00, 0xFF, 0xFF] (some 12)))
    = [0x00, 0x00, 0xF8, 0x00, 0xFC, 0x00, 0xF8, 0x00, 0x00, 0xF8, 0xFC, 0xF8] := by decide +kernel
/-- V42-11: one scratch byte short. -/
theorem test_rgbp_allocation : resultAfter (exec (.convertRGBP ⟨2, 2, 8, 12, .bgr⟩) (frame [] (some 11)))
    = some (2, allocationText) := by decide +kernel
/-- V43-3. -/
theorem test_yuyv_bgr : bytesAfter .dst 12 (exec (.convertYUYV ⟨2, 2, 8, 12, .bgr⟩)
      (frame [0x51, 0x5A, 0x91, 0xF0, 0x29, 0xF0, 0xC8, 0x6E] (some 12)))
    = [0x04, 0x0C, 0xF9, 0x44, 0x4C, 0xFF, 0xFF, 0x0D, 0x0E, 0xFF, 0xAC, 0xAD] := by decide +kernel
/-- V46-5: InvalidArgument wins over AllocationFailure. -/
theorem test_yuyv_priority : resultAfter (exec (.convertYUYV ⟨3, 2, 12, 18, .bgr⟩) (frame [] (some 0)))
    = some (3, invalidText) := by decide +kernel
/-- V43-5. -/
theorem test_yvyu : bytesAfter .dst 12 (exec (.convertYVYU ⟨2, 2, 8, 12, .rgb⟩)
      (frame [0x51, 0x5A, 0x91, 0xF0, 0x29, 0xF0, 0xC8, 0x6E] (some 0)))
    = [0x18, 0x44, 0xFF, 0x58, 0x84, 0xFF, 0xD1, 0x00, 0x04, 0xFF, 0x7B, 0xA3] := by decide +kernel
/-- V43-6. -/
theorem test_uyvy : bytesAfter .dst 12 (exec (.convertUYVY ⟨2, 2, 8, 12, .rgb⟩)
      (frame [0x51, 0x5A, 0x91, 0xF0, 0x29, 0xF0, 0xC8, 0x6E] (some 0)))
    = [0x73, 0x5F, 0x00, 0xFF, 0xF5, 0x91, 0xFF, 0xDB, 0x40, 0xDA, 0x59, 0x00] := by decide +kernel
/-- Program P2, the output rows 1 and 2: chroma row 0 serves row 1, chroma row 1 serves row 2. -/
theorem test_yu12_bgr : (bytesAfter .dst 36 (exec (.convertYU12 ⟨4, 4, 24, 48, .bgr⟩)
      (frame [0x08, 0x18, 0x28, 0x38, 0x48, 0x58, 0x68, 0x78, 0x88, 0x98, 0xA8, 0xB8, 0xC8, 0xD8, 0xE8, 0xF8,
        0x5A, 0x80, 0xF0, 0x36, 0xF0, 0x80, 0x6E, 0x22] (some 64)))).drop 12
    = [0x00, 0x03, 0xF0, 0x0B, 0x13, 0xFF, 0x68, 0x68, 0x68, 0x78, 0x78, 0x78,
       0xFF, 0x6C, 0x6D, 0xFF, 0x7C, 0x7D, 0x12, 0xFF, 0x1B, 0x22, 0xFF, 0x2B] := by decide +kernel
/-- V44-8: the source one byte short. -/
theorem test_yu12_short : resultAfter (exec (.convertYU12 ⟨2, 2, 5, 12, .rgb⟩) (frame [] none)) = some (3, invalidText) := by
  decide +kernel
/-- V44-2. -/
theorem test_yv12 : bytesAfter .dst 12 (exec (.convertYV12 ⟨2, 2, 6, 12, .rgb⟩) (frame [0x10, 0x60, 0xA0, 0xF0, 0x5A, 0xF0] (some 0)))
    = [0x00, 0x03, 0xF1, 0x27, 0x53, 0xFF, 0x67, 0x93, 0xFF, 0xB7, 0xE3, 0xFF] := by decide +kernel
/-- V45-7, with exactly the scratch it needs. -/
theorem test_s501_bgr : bytesAfter .dst 12 (exec (.convertS501 ⟨2, 2, 6, 12, .bgr⟩) (frame [0x90, 0xE0, 0xDA, 0x20, 0x70, 0x70] (some 18)))
    = [0x00, 0x00, 0xB8, 0x13, 0x1B, 0xFF, 0x53, 0x5B, 0xFF, 0xA3, 0xAB, 0xFF] := by decide +kernel
/-- V45-12, program P3: the second request is refused. -/
theorem test_s501_allocation : resultAfter (exec (.convertS501 ⟨2, 2, 6, 12, .bgr⟩) (frame [] (some 17)))
    = some (2, allocationText) := by decide +kernel
/-- V45-5: the intermediate and the image. -/
theorem test_s505 :
    let r := exec (.convertS505 ⟨2, 2, 6, 12, .rgb⟩) (frame [0x90, 0xE0, 0xDA, 0x20, 0x70, 0x70] (some 6))
    bytesAfter .scry 6 r = [0x10, 0x60, 0x5A, 0xA0, 0xF0, 0xF0] ∧
    bytesAfter .dst 12 r = [0xB8, 0x00, 0xF1, 0xFF, 0x00, 0xFF, 0xFF, 0x00, 0xFF, 0xFF, 0x22, 0xFF] := by decide +kernel
/-- V45-10: the intermediate of a 4x4 frame in layout C. -/
theorem test_s508_unpack : bytesAfter .scry 24 (exec (.convertS508 ⟨4, 4, 24, 48, .rgb⟩)
      (frame ((List.range 24).map (BitVec.ofNat 8)) none))
    = [0x80, 0x81, 0x82, 0x83, 0x88, 0x89, 0x8A, 0x8B, 0x8C, 0x8D, 0x8E, 0x8F, 0x94, 0x95, 0x96, 0x97,
       0x84, 0x85, 0x90, 0x91, 0x86, 0x87, 0x92, 0x93] := by decide +kernel
/-- V45-6. -/
theorem test_s508 : bytesAfter .dst 12 (exec (.convertS508 ⟨2, 2, 6, 12, .rgb⟩) (frame [0x90, 0xE0, 0xDA, 0x20, 0x70, 0x70] (some 6)))
    = [0x40, 0x07, 0x00, 0x90, 0x57, 0x13, 0xFF, 0xE7, 0xA3, 0xFF, 0xE7, 0xA3] := by decide +kernel
/-- V46-4: an unsupported code wins over a frame of no pixels. -/
theorem test_unsupported : resultAfter (exec (.convertUnsupported 0x47504A4D ⟨0, 0, 0, 0, .bgr⟩) (frame [] none))
    = some (1, unsupportedText ++ [0x4D, 0x4A, 0x50, 0x47]) := by decide +kernel

/-! ### The host's accesses -/

/-- V46-11: only ORDER; CTRL then reads 1. -/
theorem test_ctrl_order : replyAfter (core.run 2 { State.reset with bus := [.wr 0x14 1, .rd 0x14] }) = .word 1 := by decide +kernel
/-- V46-12, V46-2: reserved bits are ignored and a command starts; STATUS then reads DONE and RESULT = 1. -/
theorem test_ctrl_start : replyAfter (core.run 2 { State.reset with bus := [.wr 0x14 0xFFFFFFFE, .rd 0x18] }) = .word 6 := by
  decide +kernel
/-- Program P4's first failure: ERRMSG6 is the code. -/
theorem test_errmsg6 :
    replyAfter (core.run 3 { State.reset with bus := [.wr 0x00 0x34363248, .wr 0x14 2, .rd 0x38] }) = .word 0x34363248 := by
  decide +kernel
/-- Program P4: a success leaves the message of the failure before it. -/
theorem test_errmsg_kept :
    errorText (match exec (.convertRGB3 ⟨1, 1, 3, 3, .rgb⟩) { frame [1, 2, 3] none with errmsg := messageBytes invalidText } with
      | .next t => t.errmsg | _ => State.reset.errmsg) = invalidText := by decide +kernel
/-- 93_implementation_defined.md U7. -/
theorem test_unaligned :
    (match step { State.reset with bus := [.rd 2] } with
      | .refused .unalignedRegisterAccess => true | _ => false) = true := by decide

/-! ### Witnesses: for each statement with hypotheses, values that meet them, clause by clause -/

/-- A frame of YUYV samples of value 128. -/
def grey : State := frame [128, 128, 128, 128, 128, 128, 128, 128] (some 12)

/-- A state in which a command runs. -/
def busy : State := { State.reset with status := statusBusy, latch := ⟨0, 1, 1, 3, 3, .rgb⟩ }

theorem valid_of {cls : LayoutClass} {c : CmdFields} (h : accepted cls c = true) : Valid cls c := (accepted_iff cls c).1 h
theorem invalid_of {cls : LayoutClass} {c : CmdFields} (h : accepted cls c = false) : ¬ Valid cls c :=
  fun hv => by rw [(accepted_iff cls c).2 hv] at h; cases h
theorem capHolds_of {s : State} {n : Nat} (h : fitsCap s.params.scratchCap n = true) : s.CapHolds n := (fitsCap_iff s n).1 h
theorem capFails_of {s : State} {n : Nat} (h : fitsCap s.params.scratchCap n = false) : ¬ s.CapHolds n :=
  fun hc => by rw [(fitsCap_iff s n).2 hc] at h; cases h

theorem witness_DecodeOfEncodeIsTheCommand : WellFormed (.convertUnsupported 0 ⟨0, 0xFFFFFFFF, 0, 0, .bgr⟩) = true := by decide

theorem witness_EncodeOfDecodeIsTheWords :
    decodeWords ⟨0x33424752, 2, 1, 6, 6, 0xFFFFFFFF⟩ = .ok (.convertRGB3 ⟨2, 1, 6, 6, .bgr⟩) [] := by decide

theorem witness_ClipSaturatesToAByte : (-1 : Int) < 0 ∧ (255 : Int) < 256 ∧ ((0 : Int) ≤ 0 ∧ (0 : Int) ≤ 255) ∧
    ((0 : Int) ≤ 255 ∧ (255 : Int) ≤ 255) := by decide

/-- Two frames of grey: 2 by 2, the smallest of the class; the cap exactly the need of BGR output. -/
theorem witness_NeutralChromaGivesGrey :
    grey.ScratchFree ∧ Valid .packedYuv422 ⟨2, 2, 8, 12, .bgr⟩ ∧ grey.CapHolds (singleStageNeed ⟨2, 2, 8, 12, .bgr⟩) ∧
    ∀ a, a < 8 → grey.byteAt .src a = 128 :=
  ⟨⟨rfl, rfl⟩, valid_of (by decide), capHolds_of (by decide), by decide⟩

/-- V43-4's first group; and sums at both ends of the range. -/
theorem witness_SharedChromaDiffersByLuma :
    (∀ z : Byte, z = 100 ∨ z = 140 →
      let t := chromaTerms 110 150
      (0 ≤ (z.toNat : Int) + t.v1.toInt ∧ (z.toNat : Int) + t.v1.toInt ≤ 255) ∧
      (0 ≤ (z.toNat : Int) - t.rg.toInt ∧ (z.toNat : Int) - t.rg.toInt ≤ 255) ∧
      (0 ≤ (z.toNat : Int) + t.u1.toInt ∧ (z.toNat : Int) + t.u1.toInt ≤ 255)) ∧
    (∀ z : Byte, z = 0 ∨ z = 255 →
      let t := chromaTerms 128 128
      (0 ≤ (z.toNat : Int) + t.v1.toInt ∧ (z.toNat : Int) + t.v1.toInt ≤ 255) ∧
      (0 ≤ (z.toNat : Int) - t.rg.toInt ∧ (z.toNat : Int) - t.rg.toInt ≤ 255) ∧
      (0 ≤ (z.toNat : Int) + t.u1.toInt ∧ (z.toNat : Int) + t.u1.toInt ≤ 255)) := by
  constructor <;> rintro z (rfl | rfl) <;> decide

theorem witness_CommandRegistersReadBack :
    State.reset.status.busy = false ∧
    ∀ off ∈ [0x00, 0x04, 0x08, 0x0C, 0x10], (off = 0x00 ∨ off = 0x04 ∨ off = 0x08 ∨ off = 0x0C ∨ off = 0x10) ∧
      ({ State.reset with bus := [.wr off 0xFFFFFFFF] } : State).bus = .wr off 0xFFFFFFFF :: [] :=
  ⟨rfl, fun off h => ⟨by simpa using h, rfl⟩⟩

/-- STATUS, the reserved offsets, both ends of ERRMSG. -/
theorem witness_ReadOnlyAndReservedIgnoreWrites :
    ∀ off ∈ [0x18, 0x1C, 0x20, 0x3C, 0x40, 0xFFFFFFFC], off % 4 = 0 ∧ 0x18 ≤ off ∧
      ({ State.reset with bus := [.wr off 1] } : State).bus = .wr off 1 :: [] := fun off h =>
  ⟨by simp at h; omega, by simp at h; omega, rfl⟩

theorem witness_BusyIgnoresEveryWrite :
    0x14 % 4 = 0 ∧ busy.status.busy = true ∧ ({ busy with bus := [.wr 0x14 2] } : State).bus = .wr 0x14 2 :: [] := ⟨rfl, rfl, rfl⟩

theorem witness_CtrlWithoutStartStoresOrder :
    State.reset.status.busy = false ∧ (0xFFFFFFFD : Word).getLsbD 1 = false ∧
    ({ State.reset with bus := [.wr 0x14 0xFFFFFFFD] } : State).bus = .wr 0x14 0xFFFFFFFD :: [] := ⟨rfl, by decide, rfl⟩

theorem witness_ReadsAnswerAndUnalignedIsRefused :
    (0x18 % 4 = 0 ∧ ({ State.reset with bus := [.rd 0x18] } : State).bus = .rd 0x18 :: []) ∧
    (0x19 % 4 ≠ 0 ∧ ({ State.reset with bus := [.rd 0x19] } : State).bus = .rd 0x19 :: []) ∧
    (0x17 % 4 ≠ 0 ∧ ({ State.reset with bus := [.wr 0x17 2] } : State).bus = .wr 0x17 2 :: []) := by
  refine ⟨⟨rfl, rfl⟩, ⟨by decide, rfl⟩, by decide, rfl⟩

theorem witness_LoadSrcFillsTheSource :
    State.reset.status.busy = false ∧ ({ State.reset with bus := [.loadSrc [1, 2]] } : State).bus = .loadSrc [1, 2] :: [] ∧
    1 < [1, 2].length ∧ [1, 2].length ≤ 2 := ⟨rfl, rfl, by decide, by decide⟩

/-- Both sides of DST_LEN, and a busy machine. -/
theorem witness_ReadDstAnswersWithinItsLength :
    (∃ s : State, s.status.busy = false ∧ 3 ≤ s.dstLen.toNat ∧ s.bus = .readDst 3 :: []) ∧
    (∃ s : State, s.status.busy = false ∧ s.dstLen.toNat < 4 ∧ s.bus = .readDst 4 :: []) ∧
    (busy.status.busy = true ∧ ({ busy with bus := [.loadSrc [1]] } : State).bus = .loadSrc [1] :: []) :=
  ⟨⟨{ State.reset with dstLen := 3, bus := [.readDst 3] }, rfl, by decide, rfl⟩,
   ⟨{ State.reset with dstLen := 3, bus := [.readDst 4] }, rfl, by decide, rfl⟩, rfl, rfl⟩

theorem witness_NoAccessLeavesTheMachineIdle : State.reset.bus = [] := rfl

theorem witness_StepRunsTheDecodedCommand :
    let s : State := { State.reset with format := 0x33424752, width := 1, height := 1, srcLen := 3, dstLen := 3, bus := [.wr 0x14 2] }
    s.status.busy = false ∧ s.bus = .wr 0x14 2 :: [] ∧
    decodeWords ⟨s.format, s.width, s.height, s.srcLen, s.dstLen, 2⟩ = .ok (.convertRGB3 ⟨1, 1, 3, 3, .rgb⟩) [] := by
  refine ⟨rfl, rfl, by decide⟩

theorem witness_ConvertExpandsToSixWrites :
    WellFormed (.convertS501 ⟨2, 2, 6, 12, .bgr⟩) = true ∧ State.reset.status.busy = false ∧
    ({ State.reset with bus := convertOps (encode (.convertS501 ⟨2, 2, 6, 12, .bgr⟩)) } : State).bus =
      convertOps (encode (.convertS501 ⟨2, 2, 6, 12, .bgr⟩)) ++ [] := ⟨rfl, rfl, rfl⟩

theorem witness_ScratchFree : State.reset.ScratchFree := ⟨rfl, rfl⟩

/-- A frame of no pixels; and the smallest one, with buffers of exactly its sizes (V41-5, V41-7). -/
theorem witness_DirectCommandsCopyOrSwap :
    ¬ Valid .packedRgb24 ⟨0, 1, 3, 3, .rgb⟩ ∧ Valid .packedRgb24 ⟨1, 1, 3, 3, .rgb⟩ ∧ Valid .packedRgb24 ⟨1, 1, 3, 3, .bgr⟩ :=
  ⟨invalid_of (by decide), valid_of (by decide), valid_of (by decide)⟩

/-- One source byte short; the scratch one byte short, and exactly enough (V42-9, V42-11). -/
theorem witness_RgbpUnpacksEveryPixel :
    ¬ Valid .rgb565 ⟨2, 2, 7, 12, .bgr⟩ ∧ Valid .rgb565 ⟨2, 2, 8, 12, .bgr⟩ ∧
    ¬ (frame [] (some 11)).CapHolds (singleStageNeed ⟨2, 2, 8, 12, .bgr⟩) ∧
    (frame [] (some 12)).CapHolds (singleStageNeed ⟨2, 2, 8, 12, .bgr⟩) :=
  ⟨invalid_of (by decide), valid_of (by decide), capFails_of (by decide), capHolds_of (by decide)⟩

/-- An odd width; the scratch one byte short, and exactly enough; none for RGB (V43-3, V43-9, V43-10). -/
theorem witness_PackedCommandsConvertEveryGroup :
    ¬ Valid .packedYuv422 ⟨3, 2, 12, 18, .rgb⟩ ∧ Valid .packedYuv422 ⟨2, 2, 8, 12, .bgr⟩ ∧
    ¬ (frame [] (some 11)).CapHolds (singleStageNeed ⟨2, 2, 8, 12, .bgr⟩) ∧
    (frame [] (some 12)).CapHolds (singleStageNeed ⟨2, 2, 8, 12, .bgr⟩) ∧
    (frame [] (some 0)).CapHolds (singleStageNeed ⟨2, 2, 8, 12, .rgb⟩) :=
  ⟨invalid_of (by decide), valid_of (by decide), capFails_of (by decide), capHolds_of (by decide), capHolds_of (by decide)⟩

/-- An odd height; the scratch one byte short, and exactly enough (V44-7). -/
theorem witness_PlanarCommandsReplicateChroma :
    ¬ Valid .planarYuv420 ⟨4, 3, 18, 36, .rgb⟩ ∧ Valid .planarYuv420 ⟨2, 2, 6, 12, .bgr⟩ ∧
    ¬ (frame [] (some 11)).CapHolds (singleStageNeed ⟨2, 2, 6, 12, .bgr⟩) ∧
    (frame [] (some 12)).CapHolds (singleStageNeed ⟨2, 2, 6, 12, .bgr⟩) :=
  ⟨invalid_of (by decide), valid_of (by decide), capFails_of (by decide), capHolds_of (by decide)⟩

/-- One DST byte short; the scratch one byte short, and exactly enough, in either order (V45-7, V45-11 to V45-13). -/
theorem witness_VendorCommandsEqualOneFormula :
    ¬ Valid .vendor ⟨2, 2, 6, 11, .rgb⟩ ∧ Valid .vendor ⟨2, 2, 6, 12, .rgb⟩ ∧ Valid .vendor ⟨2, 2, 6, 12, .bgr⟩ ∧
    ¬ (frame [] (some 5)).CapHolds (vendorNeed ⟨2, 2, 6, 12, .rgb⟩) ∧ (frame [] (some 6)).CapHolds (vendorNeed ⟨2, 2, 6, 12, .rgb⟩) ∧
    ¬ (frame [] (some 17)).CapHolds (vendorNeed ⟨2, 2, 6, 12, .bgr⟩) ∧ (frame [] (some 18)).CapHolds (vendorNeed ⟨2, 2, 6, 12, .bgr⟩) :=
  ⟨invalid_of (by decide), valid_of (by decide), valid_of (by decide), capFails_of (by decide), capHolds_of (by decide),
   capFails_of (by decide), capHolds_of (by decide)⟩

theorem witness_UnsupportedCodeEndsInItsError : (0 : Word) ∉ supportedCodes ∧ (0x76797579 : Word) ∉ supportedCodes := by decide

theorem witness_UnpackBuildsThePlanarIntermediate : 4 % 2 = 0 ∧ 2 % 2 = 0 ∧ (11 < 3 * (4 * 2) / 2 ∧ 3 * (4 * 2) / 2 ≤ 12) := by decide

theorem witness_UnpackLosesNoSourceByte : 4 % 2 = 0 ∧ 2 % 2 = 0 ∧ linesB 4 ≠ linesA 4 ∧ linesB 4 ≠ linesC 4 := by decide

/-- Program P5's frame, and its output fed back. -/
theorem witness_SwapRoundTripRestoresTheSource :
    let c : CmdFields := ⟨2, 1, 6, 6, .bgr⟩
    let s := frame [1, 2, 3, 4, 5, 6] none
    let s' := frame [3, 2, 1, 6, 5, 4] none
    c.order = .bgr ∧ Valid .packedRgb24 c ∧ s.ScratchFree ∧ s'.ScratchFree ∧
    ∃ t, exec (.convertRGB3 c) s = .next t ∧ ∀ a, a < 6 → s'.byteAt .src a = t.byteAt .dst a :=
  ⟨rfl, valid_of (by decide), ⟨rfl, rfl⟩, ⟨rfl, rfl⟩, _, rfl, by decide +kernel⟩

/-- A uniform Y plane of four bytes. -/
theorem witness_PlanarRowPairsAreAlike :
    (frame [100, 100, 100, 100, 1, 2] none).ScratchFree ∧ Valid .planarYuv420 ⟨2, 2, 6, 12, .rgb⟩ ∧
    (frame [100, 100, 100, 100, 1, 2] none).CapHolds (singleStageNeed ⟨2, 2, 6, 12, .rgb⟩) ∧
    ∀ a, a < 4 → (frame [100, 100, 100, 100, 1, 2] none).byteAt .src a = 100 :=
  ⟨⟨rfl, rfl⟩, valid_of (by decide), capHolds_of (by decide), by decide⟩

/-- The four clauses, in their order. -/
theorem witness_ResultFollowsThePriority :
    (frame [] (some 11)).ScratchFree ∧
    (∃ t, exec (.convertUnsupported 0 ⟨0, 0, 0, 0, .rgb⟩) (frame [] (some 11)) = .next t) ∧
    (¬ Valid .vendor ⟨2, 1, 6, 12, .bgr⟩ ∧ ∃ t, exec (.convertS505 ⟨2, 1, 6, 12, .bgr⟩) (frame [] (some 11)) = .next t) ∧
    (¬ (frame [] (some 11)).CapHolds (scratchNeed .rgb565 ⟨2, 2, 8, 12, .bgr⟩) ∧
      ∃ t, exec (.convertRGBP ⟨2, 2, 8, 12, .bgr⟩) (frame [] (some 11)) = .next t) ∧
    ((frame [] (some 11)).CapHolds (scratchNeed .vendor ⟨2, 2, 6, 12, .rgb⟩) ∧
      ∃ t, exec (.convertS508 ⟨2, 2, 6, 12, .rgb⟩) (frame [] (some 11)) = .next t) :=
  ⟨⟨rfl, rfl⟩, ⟨_, rfl⟩, ⟨invalid_of (by decide), _, rfl⟩, ⟨capFails_of (by decide), _, rfl⟩,
   capHolds_of (by decide), _, rfl⟩

theorem witness_SuccessKeepsTheOtherWorkingRegisters :
    let i : Instr := .convertYU12 ⟨2, 2, 6, 12, .bgr⟩
    classOf i ≠ .unsupported ∧ (frame [] (some 12)).ScratchFree ∧ Valid (classOf i) i.fields ∧
    (frame [] (some 12)).CapHolds (scratchNeed (classOf i) i.fields) :=
  ⟨by decide, ⟨rfl, rfl⟩, valid_of (by decide), capHolds_of (by decide)⟩

/-- A BGR3 source asked for as BGR: COPY is the decode stage. -/
theorem witness_SuccessLeavesTheLastPixelInRGB :
    let i : Instr := .convertBGR3 ⟨2, 1, 6, 6, .bgr⟩
    classOf i ≠ .unsupported ∧ (frame [1, 2, 3, 4, 5, 6] (some 0)).ScratchFree ∧ Valid (classOf i) i.fields ∧
    (frame [1, 2, 3, 4, 5, 6] (some 0)).CapHolds (scratchNeed (classOf i) i.fields) :=
  ⟨by decide, ⟨rfl, rfl⟩, valid_of (by decide), capHolds_of (by decide)⟩

theorem witness_ErrmsgChangesOnlyOnFailure :
    ∃ t, exec (.convertUnsupported 0x34363248 ⟨2, 2, 0, 0, .rgb⟩) State.reset = .next t := ⟨_, rfl⟩

/-- A success, with DST longer than the image. -/
theorem witness_WritesStayInsideTheBuffer :
    ∃ t, exec (.convertRGB3 ⟨1, 1, 3, 4, .rgb⟩) State.reset = .next t ∧ t.status.result = 0 := ⟨_, rfl, by decide +kernel⟩

/-- Two states that agree on the three bytes a 1 by 1 frame reads, and on little else. -/
theorem witness_CommandDependsOnlyOnItsInputs :
    let s := frame [1, 2, 3, 4] none
    let s' := { frame [1, 2, 3, 5] none with work := { Work.reset with tmp16 := 7 }, dst := [(0, 9)] }
    s.ScratchFree ∧ s'.ScratchFree ∧ s'.params = s.params ∧
    ∀ a, a < layoutSize .packedRgb24 1 1 → s'.byteAt .src a = s.byteAt .src a := by
  refine ⟨⟨rfl, rfl⟩, ⟨rfl, rfl⟩, rfl, by decide⟩

theorem witness_LayoutSizesOfTheTable : 2 % 2 = 0 ∧ 0 % 2 = 0 := by decide

theorem witness_AllocGrantsWhatFits : (frame [] (some 12)).CapHolds (0 + 12) ∧ ¬ (frame [] (some 12)).CapHolds (0 + 13) :=
  ⟨capHolds_of (by decide), capFails_of (by decide)⟩

theorem witness_RaiseLeavesTheFailureState : 11 < 12 ∧ 12 ≤ 12 := by decide

theorem witness_MessagesReadAsTheirTexts : ∀ b ∈ tagBytes 0x34363248, b ≠ 0 := by decide

/-- Reset of an idle machine, and of one that runs a command of three DST bytes. -/
theorem witness_ResetRestoresTheTable :
    (({ State.reset with bus := [.reset] } : State).bus = .reset :: [] ∧ State.reset.status.busy = false) ∧
    (({ busy with bus := [.reset] } : State).bus = .reset :: [] ∧ busy.latch.dstLen.toNat ≤ 3) := ⟨⟨rfl, rfl⟩, rfl, by decide⟩

theorem witness_StartAfterResetIsUnsupported : (0xFFFFFFFE : Word).getLsbD 1 = true := by decide

/-- The reset state with a command pending meets the invariant and takes a step. -/
theorem witness_EveryStepKeepsTheInvariant :
    let s : State := { State.reset with bus := [.wr 0x14 2] }
    s.Inv ∧ ∃ t, step s = .next t :=
  ⟨{ srcWf := List.Pairwise.nil, dstWf := List.Pairwise.nil, scryWf := List.Pairwise.nil, scrrWf := List.Pairwise.nil,
     junkRising := List.Pairwise.nil, junkDrawn := (fun _ h => nomatch h), scryDrawn := by decide, scrrDrawn := by decide,
     messageEnds := by decide, idle := ⟨rfl, rfl, rfl, rfl⟩, resultNeedsDone := fun _ => rfl }, _, rfl⟩

/-- The three ways: reset, START, and an access that does not run the engine. -/
theorem witness_OnlyStartAndResetRunTheEngine :
    (∃ t, step { State.reset with bus := [.reset] } = .next t) ∧ (∃ t, step { State.reset with bus := [.wr 0x14 2] } = .next t) ∧
    (∃ t, step { State.reset with bus := [.wr 0x14 1] } = .next t) := ⟨⟨_, rfl⟩, ⟨_, rfl⟩, ⟨_, rfl⟩⟩

theorem witness_OnlyTheHostChangesTheSource :
    (∃ t, step { State.reset with bus := [.loadSrc [1]] } = .next t) ∧ (∃ t, step { State.reset with bus := [.rd 0] } = .next t) :=
  ⟨⟨_, rfl⟩, _, rfl⟩

end Sys2Proof.Tests
end

section
/-! PROOF. The register space: what a read gives after a write, and what each word shows. -/

namespace Sys2Proof.Machine

/-! ### Reads -/

theorem readReg_ctrl (s : State) : readReg 0x14 s = ctrlWord false s.order := rfl

theorem readReg_status (s : State) : readReg 0x18 s = statusWord s.status := rfl

theorem readReg_errmsg (s : State) {j : Nat} (h : j < 8) : readReg (0x20 + 4 * j) s = errmsgWord s.errmsg j := by
  have hj : (0x20 + 4 * j - 0x20) / 4 = j := by omega
  rw [readReg, if_neg (by omega), if_neg (by omega), if_neg (by omega), if_neg (by omega), if_neg (by omega),
    if_neg (by omega), if_neg (by omega), if_pos (by omega), hj]

theorem readReg_reserved (s : State) {off : Nat} (h : off = 0x1C ∨ 0x40 ≤ off) : readReg off s = 0 := by
  rw [readReg, if_neg (by omega), if_neg (by omega), if_neg (by omega), if_neg (by omega), if_neg (by omega),
    if_neg (by omega), if_neg (by omega), if_neg (by omega)]

/-- The pending accesses are no register. -/
@[simp] theorem readReg_bus (off : Nat) (s : State) (bus : List HostOp) : readReg off { s with bus := bus } = readReg off s := rfl

/-! ### Writes -/

/-- A register write changes the five command registers at most. -/
theorem writeReg_frame (off : Nat) (v : Word) (s : State) :
    let t := writeReg off v s
    t = { s with format := t.format, width := t.width, height := t.height, srcLen := t.srcLen, dstLen := t.dstLen } := by
  unfold writeReg
  split_ifs <;> rfl

theorem writeReg_readOnly (v : Word) (s : State) {off : Nat} (h : 0x18 ≤ off) : writeReg off v s = s := by
  rw [writeReg, if_neg (by omega), if_neg (by omega), if_neg (by omega), if_neg (by omega), if_neg (by omega)]

/-- A command register reads what was written to it. -/
theorem readReg_writeReg_same {off : Nat} (h : off = 0x00 ∨ off = 0x04 ∨ off = 0x08 ∨ off = 0x0C ∨ off = 0x10)
    (v : Word) (s : State) : readReg off (writeReg off v s) = v := by
  rcases h with rfl | rfl | rfl | rfl | rfl <;> rfl

/-- Every other offset reads as before. -/
theorem readReg_writeReg_other {off o : Nat} (h : off = 0x00 ∨ off = 0x04 ∨ off = 0x08 ∨ off = 0x0C ∨ off = 0x10)
    (ho : o ≠ off) (v : Word) (s : State) : readReg o (writeReg off v s) = readReg o s := by
  rcases h with rfl | rfl | rfl | rfl | rfl
  all_goals simp only [readReg, writeReg, if_neg ho, reduceIte, Nat.reduceEqDiff]

/-! ### The fields of the words -/

/-- Every bit of the STATUS word (10_state.md R27); RESULT has no bit from 2 on. -/
theorem statusWord_bit (st : Status) (i : Nat) :
    (statusWord st).getLsbD i = if i = 0 then st.busy else if i = 1 then st.done else st.result.getLsbD (i - 2) := by
  simp only [statusWord, BitVec.getLsbD_append]
  match i with
  | 0 => exact BitVec.getLsbD_ofBool _ 0
  | 1 => exact BitVec.getLsbD_ofBool _ 0
  | i + 2 =>
    by_cases hi : i < 2
    · simp [hi]
    · simp [hi, BitVec.getLsbD_of_ge st.result i (by omega)]

theorem statusWord_result (st : Status) : (statusWord st).extractLsb' 2 2 = st.result := by
  apply BitVec.eq_of_getLsbD_eq
  intro i hi
  rw [BitVec.getLsbD_extractLsb', statusWord_bit, if_neg (by omega), if_neg (by omega), Nat.add_sub_cancel_left]
  simp [hi]

theorem statusWord_zeros (st : Status) : (statusWord st).extractLsb' 4 28 = 0 := by
  apply BitVec.eq_of_getLsbD_eq
  intro i _
  rw [BitVec.getLsbD_extractLsb', statusWord_bit, if_neg (by omega), if_neg (by omega),
    BitVec.getLsbD_of_ge _ _ (by omega)]
  simp

theorem errmsgWord_byte (m : Vector Byte 32) {i : Nat} (h : i < 32) :
    (errmsgWord m (i / 4)).extractLsb' (8 * (i % 4)) 8 = m[i] := by
  obtain ⟨h0, h1, h2, h3⟩ := extract_wordOfBytes (m.toList.getD (4 * (i / 4)) 0) (m.toList.getD (4 * (i / 4) + 1) 0)
    (m.toList.getD (4 * (i / 4) + 2) 0) (m.toList.getD (4 * (i / 4) + 3) 0)
  have hget : m.toList.getD (4 * (i / 4) + i % 4) 0 = m[i] := by
    rw [Nat.div_add_mod]; simp [List.getD, h]
  have hr : i % 4 < 4 := Nat.mod_lt _ (by decide)
  rw [errmsgWord, ← hget]
  interval_cases i % 4
  · exact h0
  · exact h1
  · exact h2
  · exact h3

end Sys2Proof.Machine
end

section
/-! PROOF. One access of the host: the step of each, and what an access that answers a next state can do. -/

namespace Sys2Proof.Machine

/-! ### The step of an access -/

theorem step_idle {s : State} (hs : s.bus = []) : step s = .next s := by
  simp [step, stepHost, hs]

theorem step_access {s : State} {op : HostOp} {rest : List HostOp} (hs : s.bus = op :: rest) :
    step s = hostAccess op { s with bus := rest } := by
  simp [step, stepHost, hs]

theorem step_write_busy {s : State} {off : Nat} {v : Word} {rest : List HostOp} (hb : s.status.busy = true)
    (hs : s.bus = .wr off v :: rest) (h4 : off % 4 = 0) : step s = .next { s with bus := rest } := by
  simp [step_access hs, hostAccess, hostWrite, h4, hb]

theorem step_ctrl_store {s : State} {v : Word} {rest : List HostOp} (hb : s.status.busy = false)
    (hs : s.bus = .wr 0x14 v :: rest) (hv : startBit v = false) :
    step s = .next { s with bus := rest, order := orderOfBit (v.getLsbD 0) } := by
  simp [step_access hs, hostAccess, hostWrite, hb, writeCtrl, hv]

theorem step_read {s : State} {off : Nat} {rest : List HostOp} (hs : s.bus = .rd off :: rest) (h4 : off % 4 = 0) :
    step s = .next { s with bus := rest, reply := .word (readReg off s) } := by
  simp [step_access hs, hostAccess, hostRead, h4]

theorem step_unaligned {s : State} {off : Nat} {v : Word} {rest : List HostOp}
    (hs : s.bus = .rd off :: rest ∨ s.bus = .wr off v :: rest) (h4 : off % 4 ≠ 0) :
    step s = .refused .unalignedRegisterAccess := by
  rcases hs with hs | hs
  · simp [step_access hs, hostAccess, hostRead, h4]
  · simp [step_access hs, hostAccess, hostWrite, h4]

/-- Six words that decode have START set and select the row of their code. -/
theorem decodeWords_ok {ws : CmdWords} {i : Instr} {rest : List Byte} (h : decodeWords ws = .ok i rest) :
    startBit ws.w5 = true ∧ i = selectRow ws.w0 (fieldsOfWords ws) := by
  unfold decodeWords at h
  split at h <;> cases h
  exact ⟨‹_›, rfl⟩

/-! ### From a next state back to the access -/

theorem hostWrite_cases {off : Nat} {v : Word} {s t : State} (h : hostWrite off v s = .next t) :
    (s.status.busy = true ∧ t = s) ∨
    (s.status.busy = false ∧ off = 0x14 ∧ startBit v = false ∧ t = { s with order := orderOfBit (v.getLsbD 0) }) ∨
    (s.status.busy = false ∧ off = 0x14 ∧ startBit v = true ∧
      startCommand { s with order := orderOfBit (v.getLsbD 0) } = .next t) ∨
    (s.status.busy = false ∧ off ≠ 0x14 ∧ t = writeReg off v s) := by
  unfold hostWrite at h
  split_ifs at h with _ hb hc
  · cases h; exact .inl ⟨hb, rfl⟩
  · cases hv : startBit v
    · simp only [writeCtrl, hv] at h
      cases h; exact .inr (.inl ⟨by simpa using hb, hc, rfl, rfl⟩)
    · simp only [writeCtrl, hv] at h
      exact .inr (.inr (.inl ⟨by simpa using hb, hc, rfl, h⟩))
  · cases h; exact .inr (.inr (.inr ⟨by simpa using hb, hc, rfl⟩))

theorem hostRead_cases {off : Nat} {s t : State} (h : hostRead off s = .next t) :
    t = { s with reply := .word (readReg off s) } := by
  unfold hostRead at h
  split at h <;> cases h
  rfl

theorem hostLoadSrc_cases {bytes : List Byte} {s t : State} (h : hostLoadSrc bytes s = .next t) :
    t = { s with src := s.src.writeList 0 bytes } := by
  unfold hostLoadSrc at h
  split at h <;> cases h
  rfl

theorem hostReadDst_cases {n : Nat} {s t : State} (h : hostReadDst n s = .next t) :
    t = { s with reply := .bytes ((List.range n).map (s.byteAt .dst)) } := by
  unfold hostReadDst at h
  split_ifs at h
  cases h
  rfl

end Sys2Proof.Machine
end

section
/-! PROOF. What keeps the invariant: every access of the host, START and reset among them. -/

namespace Sys2Proof.Machine

/-- The invariant asks nothing of the command registers, the pending accesses and the reply. -/
theorem State.Inv.withHostSide {s : State} (h : s.Inv) (format width height srcLen dstLen : Word) (order : Order)
    (bus : List HostOp) (reply : Reply) :
    ({ s with format := format, width := width, height := height, srcLen := srcLen, dstLen := dstLen,
              order := order, bus := bus, reply := reply } : State).Inv :=
  { h with idle := ⟨h.idle.notBusy, h.idle.phaseIdle, h.idle.scratchFree⟩ }

theorem writeReg_inv {s : State} (h : s.Inv) (off : Nat) (v : Word) : (writeReg off v s).Inv := by
  rw [writeReg_frame off v s]
  exact h.withHostSide ..

theorem loadSrc_inv {s : State} (h : s.Inv) (bytes : List Byte) :
    ({ s with src := s.src.writeList 0 bytes } : State).Inv :=
  { h with srcWf := Memory.wf_writeList h.srcWf 0 bytes
           idle := ⟨h.idle.notBusy, h.idle.phaseIdle, h.idle.scratchFree⟩ }

/-- Latching a command leaves what the sound part speaks of. -/
theorem latchCommand_sound {s : State} (h : s.Sound) : (latchCommand s).Sound := { h with }

@[simp] theorem State.reset_errmsg (j : Fin 32) : State.reset.errmsg[j] = 0 := by simp [State.reset]

theorem State.reset_inv : State.reset.Inv where
  srcWf := List.Pairwise.nil
  dstWf := List.Pairwise.nil
  scryWf := List.Pairwise.nil
  scrrWf := List.Pairwise.nil
  junkRising := List.Pairwise.nil
  junkDrawn := fun e he => absurd he List.not_mem_nil
  scryDrawn := by decide
  scrrDrawn := by decide
  messageEnds := fun i _ => State.reset_errmsg i
  idle := ⟨rfl, rfl, rfl, rfl⟩
  resultNeedsDone := fun _ => rfl

/-- Reset of an idle machine: both scratch buffers take the next two draws. -/
theorem resetPfc_inv {s : State} (h : s.Inv) : (resetPfc s).Inv where
  srcWf := by simpa [resetPfc, h.idle.notBusy] using h.srcWf
  dstWf := by simpa [resetPfc, h.idle.notBusy] using h.dstWf
  scryWf := List.Pairwise.nil
  scrrWf := List.Pairwise.nil
  junkRising := by simpa [resetPfc, h.idle.notBusy] using h.junkRising
  junkDrawn := by
    simp only [resetPfc, h.idle.notBusy]
    exact fun e he => Nat.lt_add_right 2 (h.junkDrawn e he)
  scryDrawn := Nat.lt_add_of_pos_right (by decide)
  scrrDrawn := Nat.lt_succ_self _
  messageEnds := State.reset_inv.messageEnds
  idle := ⟨rfl, rfl, rfl, rfl⟩
  resultNeedsDone := fun _ => rfl

/-- A command started in a sound state ends in the invariant. -/
theorem startCommand_inv {s t : State} (h : s.Sound) (hs : startCommand s = .next t) : t.Inv :=
  exec_inv (latchCommand_sound h) hs

theorem hostAccess_inv {op : HostOp} {s t : State} (h : s.Inv) (hs : hostAccess op s = .next t) : t.Inv := by
  cases op with
  | wr off v =>
    rcases hostWrite_cases hs with ⟨_, rfl⟩ | ⟨_, _, _, rfl⟩ | ⟨_, _, _, hstart⟩ | ⟨_, _, rfl⟩
    · exact h
    · exact h.withHostSide ..
    · exact startCommand_inv (h.withHostSide ..).toSound hstart
    · exact writeReg_inv h off v
  | rd off => rw [hostRead_cases hs]; exact h.withHostSide ..
  | loadSrc bytes => rw [hostLoadSrc_cases hs]; exact loadSrc_inv h bytes
  | readDst n => rw [hostReadDst_cases hs]; exact h.withHostSide ..
  | reset => cases hs; exact resetPfc_inv h

end Sys2Proof.Machine
end

section
/-! PROOF. The statements about the state: its invariant, its registers, and the working registers after a command. -/

namespace Sys2Proof.Machine

/-- How a supported command with valid arguments ends, its working registers included, from any state in which its scratch
fits (10_state.md R30; log entries 10 and 11). -/
theorem exec_success {i : Instr} {s : State} (hi : classOf i ≠ .unsupported) (hs : s.ScratchFree)
    (hv : Valid (classOf i) i.fields) (hc : s.CapHolds (scratchNeed (classOf i) i.fields)) :
    ∃ t, exec i s = .next t ∧ Succeeded i.fields s t ∧ WorkFrame (classOf i) i.fields s t ∧ LastPixel i.fields t := by
  obtain ⟨make, result, hmake, houtcomes⟩ := outcomes_of_supported i hi
  obtain ⟨_, _, hsuccess⟩ := houtcomes i.fields s hs
  obtain ⟨t, ht, hsucc, ⟨_, hwork⟩, hlast⟩ := hsuccess hv hc
  rw [hmake] at ht
  exact ⟨t, ht, hsucc, hwork, hlast⟩

theorem Succeeded.result {c : CmdFields} {s t : State} (h : Succeeded c s t) : t.status.result = 0 := by rw [h.status]

/-- Settles O52, from `hostAccess_inv`: a step is the first pending access, or none. -/
theorem everyStepKeepsTheInvariant : Obligations.EveryStepKeepsTheInvariant := by
  intro s t h hs
  cases hbus : s.bus with
  | nil =>
    rw [step_idle hbus] at hs
    cases hs
    exact h
  | cons op rest =>
    rw [step_access hbus] at hs
    exact hostAccess_inv (h.withHostSide ..) hs

/-- Settles O51. -/
theorem invariantHoldsAtReset : Obligations.InvariantHoldsAtReset := State.reset_inv

/-- Settles O15: the step is `writeReg`, whose effect on every read is known. -/
theorem commandRegistersReadBack : Obligations.CommandRegistersReadBack := by
  intro s off v rest hoff hb hs
  have h4 : off % 4 = 0 := by omega
  refine ⟨_, step_write hb hs h4 (by omega), readReg_writeReg_same hoff v _, fun o ho => ?_, writeReg_frame off v _⟩
  rw [readReg_writeReg_other hoff ho, readReg_bus]

/-- Settles O37. -/
theorem successKeepsTheOtherWorkingRegisters : Obligations.SuccessKeepsTheOtherWorkingRegisters := by
  intro i s hi hs hv hc
  obtain ⟨t, ht, hsucc, hwork, _⟩ := exec_success hi hs hv hc
  exact ⟨t, ht, hsucc.result, hwork⟩

/-- Settles O38. -/
theorem successLeavesTheLastPixelInRGB : Obligations.SuccessLeavesTheLastPixelInRGB := by
  intro i s hi hs hv hc
  obtain ⟨t, ht, hsucc, _, hlast⟩ := exec_success hi hs hv hc
  exact ⟨t, ht, hsucc.result, hlast⟩

/-- Settles O17. -/
theorem busyIgnoresEveryWrite : Obligations.BusyIgnoresEveryWrite :=
  fun _ _ _ _ h4 hb hs => step_write_busy hb hs h4

/-- Settles O16: a write is ignored while BUSY, and at these offsets otherwise too. -/
theorem readOnlyAndReservedIgnoreWrites : Obligations.ReadOnlyAndReservedIgnoreWrites := by
  refine ⟨fun s off v rest h4 hoff hs => ?_, fun s off h => readReg_reserved s h⟩
  cases hb : s.status.busy with
  | true => exact step_write_busy hb hs h4
  | false => rw [step_write hb hs h4 (by omega), writeReg_readOnly v _ hoff]

/-- Settles O18. -/
theorem ctrlWithoutStartStoresOrder : Obligations.CtrlWithoutStartStoresOrder := by
  refine ⟨fun s v rest hb hv hs => ?_, fun s => ?_⟩
  · rw [step_ctrl_store hb hs hv, orderOfBit_eq]
  · rw [readReg_ctrl]
    cases s.order <;> rfl

/-- Settles O19. -/
theorem statusWordShowsItsFields : Obligations.StatusWordShowsItsFields := by
  intro s
  rw [readReg_status]
  exact ⟨statusWord_bit _ 0, statusWord_bit _ 1, statusWord_result _, statusWord_zeros _, statusWord_result _⟩

/-- Settles O20. -/
theorem errmsgWordsHoldTheBytes : Obligations.ErrmsgWordsHoldTheBytes := by
  intro s i
  rw [readReg_errmsg s (by omega), errmsgWord_byte s.errmsg i.isLt]
  rfl

/-- Settles O21. -/
theorem readsAnswerAndUnalignedIsRefused : Obligations.ReadsAnswerAndUnalignedIsRefused :=
  fun _ _ _ _ => ⟨fun h4 hs => step_read hs h4, fun h4 hs => step_unaligned hs h4⟩

/-- Settles O25: the latches hold the words, so they decode to the same command. -/
theorem stepRunsTheDecodedCommand : Obligations.StepRunsTheDecodedCommand := by
  intro s v rest i more hb hs hd
  obtain ⟨hstart, rfl⟩ := decodeWords_ok hd
  refine ⟨(selectRow_cases _ _).1, ?_⟩
  rw [step_start hb hs hstart, startCommand, latchedInstr_eq, ← orderOfBit_eq]
  rfl

/-- Settles O48. -/
theorem resetStateIsTheTable : Obligations.ResetStateIsTheTable :=
  ⟨rfl, rfl, rfl, rfl, rfl, rfl, rfl, State.reset_errmsg, rfl, rfl, rfl, by decide⟩

end Sys2Proof.Machine
end

section
/-! PROOF. The statements about the byte spaces: how every command ends from any state, and what writes where. -/

namespace Sys2Proof.Machine

/-! ### Commands -/

theorem resultCode_ne_zero (k : ErrKind) : resultCode k ≠ 0 := by
  cases k <;> simp [resultCode]

/-- The end of an attempt that is steady and confined: one of the two ends of a command. -/
theorem Attempt.Confined.ends {a : Attempt} {c : CmdFields} {s : State} (hconf : a.Confined (outSize c) s)
    (hsteady : a.Ends (Steady s)) :
    (∃ k, Failed k c s (conclude c.dstLen.toNat a)) ∨
      ((∃ u, a = .done u) ∧ Succeeded c s (conclude c.dstLen.toNat a)) := by
  cases a with
  | done u =>
    exact .inr ⟨⟨u, rfl⟩, {
      kept := hsteady.untouched.kept.trans (kept_succeed u)
      idle := succeed_idle u
      status := rfl
      errmsg := hsteady.untouched.errmsg
      beyond := fun a ha => by rw [conclude_done, byteAt_succeed]; exact hconf a ha }⟩
  | raised k u => exact .inl ⟨k, failed_raise k c hsteady.untouched hconf.1⟩

/-- Every command that answers a next state, from any state, has failed, or has succeeded with an image that fits DST. -/
theorem exec_ends {i : Instr} {s t : State} (he : exec i s = .next t) :
    (∃ k, Failed k i.fields s t) ∨ (Succeeded i.fields s t ∧ outSize i.fields ≤ i.fields.dstLen.toNat) := by
  by_cases hi : classOf i = .unsupported
  · cases i with
    | convertUnsupported code c =>
      cases he
      exact .inl ⟨_, failed_raise _ c (untouched_enter s _) rfl⟩
    | _ => cases hi
  · obtain ⟨a, ha, hsteady, hconf, hfits⟩ := exec_confined i hi s
    obtain rfl : conclude _ a = t := by simpa [ha] using he
    rcases hconf.ends hsteady with hfail | ⟨⟨u, hu⟩, hsucc⟩
    · exact .inl hfail
    · exact .inr ⟨hsucc, hfits u hu⟩

theorem exec_kept {i : Instr} {s t : State} (he : exec i s = .next t) : Kept s t := by
  rcases exec_ends he with ⟨_, hfail⟩ | ⟨hsucc, _⟩
  · exact hfail.kept
  · exact hsucc.kept

theorem Failed.result_ne_zero {k : ErrKind} {c : CmdFields} {s t : State} (h : Failed k c s t) :
    t.status.result ≠ 0 := by
  rw [h.status]
  exact resultCode_ne_zero k

/-- Settles O42: a failure changes nothing from DST_LEN on, a success nothing from the end of its image on, which
DST_LEN reaches. -/
theorem writesStayInsideTheBuffer : Obligations.WritesStayInsideTheBuffer := by
  intro i s t he
  rcases exec_ends he with ⟨k, hfail⟩ | ⟨hsucc, hfits⟩
  · exact ⟨hfail.beyond, fun hresult => absurd hresult hfail.result_ne_zero⟩
  · exact ⟨fun a ha => hsucc.beyond a (Nat.le_trans hfits ha), fun _ => hsucc.beyond⟩

/-! ### Accesses of the host -/

theorem startCommand_source {s t : State} (hs : startCommand s = .next t) : t.params = s.params ∧ t.src = s.src :=
  have h := exec_kept hs
  ⟨h.params, h.src⟩

theorem writeReg_source (off : Nat) (v : Word) (s : State) :
    (writeReg off v s).params = s.params ∧ (writeReg off v s).src = s.src := by
  rw [writeReg_frame off v s]
  exact ⟨rfl, rfl⟩

theorem resetPfc_source (s : State) : (resetPfc s).params = s.params ∧ (resetPfc s).src = s.src := by
  cases hb : s.status.busy <;> simp [resetPfc, hb]

theorem hostWrite_source {off : Nat} {v : Word} {s t : State} (hs : hostWrite off v s = .next t) :
    t.params = s.params ∧ t.src = s.src := by
  rcases hostWrite_cases hs with ⟨_, rfl⟩ | ⟨_, _, _, rfl⟩ | ⟨_, _, _, hstart⟩ | ⟨_, _, rfl⟩
  · exact ⟨rfl, rfl⟩
  · exact ⟨rfl, rfl⟩
  · exact (startCommand_source hstart :)
  · exact writeReg_source off v s

theorem hostAccess_source {op : HostOp} {s t : State} (hs : hostAccess op s = .next t) :
    t.params = s.params ∧ (t.src = s.src ∨ ∃ bytes, op = .loadSrc bytes) := by
  cases op with
  | wr off v => exact (hostWrite_source hs).imp_right .inl
  | rd off => rw [hostRead_cases hs]; exact ⟨rfl, .inl rfl⟩
  | loadSrc bytes => rw [hostLoadSrc_cases hs]; exact ⟨rfl, .inr ⟨bytes, rfl⟩⟩
  | readDst n => rw [hostReadDst_cases hs]; exact ⟨rfl, .inl rfl⟩
  | reset => cases hs; exact (resetPfc_source s).imp_right .inl

/-- Settles O54: among the accesses only LOADSRC stores into SRC, and a command keeps SRC and the parameters (`exec_kept`). -/
theorem onlyTheHostChangesTheSource : Obligations.OnlyTheHostChangesTheSource := by
  intro s t hs
  cases hbus : s.bus with
  | nil =>
    rw [step_idle hbus] at hs
    cases hs
    exact ⟨rfl, .inl rfl⟩
  | cons op rest =>
    rw [step_access hbus] at hs
    obtain ⟨hparams, hsrc | ⟨bytes, rfl⟩⟩ := hostAccess_source hs
    · exact ⟨hparams, .inl hsrc⟩
    · exact ⟨hparams, .inr ⟨bytes, rest, rfl⟩⟩

/-! ### Layout sizes -/

/-- A frame of even sides is made of 2 by 2 blocks. -/
theorem area_eq_of_even {w h : Nat} (hw : w % 2 = 0) (hh : h % 2 = 0) : w * h = 4 * (h / 2 * (w / 2)) := by
  obtain ⟨m, rfl⟩ := Nat.dvd_of_mod_eq_zero hw
  obtain ⟨n, rfl⟩ := Nat.dvd_of_mod_eq_zero hh
  rw [Nat.mul_div_cancel_left m two_pos, Nat.mul_div_cancel_left n two_pos]
  ring

/-- Settles O44: with even sides the divisions by 4 and by 2 are exact. -/
theorem layoutSizesOfTheTable : Obligations.LayoutSizesOfTheTable := by
  intro w h
  refine ⟨rfl, rfl, rfl, fun hw hh => ?_, fun hw hh => ?_⟩
  · have harea := area_eq_of_even hw hh
    simp only [layoutSize]
    omega
  · have harea := area_eq_of_even hw hh
    have hgroups : h / 2 * (3 * w) = 6 * (h / 2 * (w / 2)) := by
      obtain ⟨m, rfl⟩ := Nat.dvd_of_mod_eq_zero hw
      rw [Nat.mul_div_cancel_left m two_pos]
      ring
    simp only [layoutSize]
    omega

end Sys2Proof.Machine
end

section
/-! PROOF. The encoding: words and bytes of a command, decoded and encoded again, and the codes of the registry. -/

namespace Sys2Proof

/-! ### Decoding words -/

/-- Six words with START set decode to the row of their code; without it they are rejected (30_encoding.md R84, R88). -/
theorem decodeWords_of_start {ws : CmdWords} (h : startBit ws.w5 = true) :
    decodeWords ws = .ok (selectRow ws.w0 (fieldsOfWords ws)) [] := if_pos h

theorem decodeWords_of_not_start {ws : CmdWords} (h : startBit ws.w5 = false) : decodeWords ws = .reject .startClear := by
  simp [decodeWords, h]

/-- Encoding loses no field of a command. -/
theorem fieldsOfWords_encode (i : Instr) : fieldsOfWords (encode i) = i.fields := by
  simp only [fieldsOfWords, encode, orderOfBit_ctrlWord]

theorem decodeWords_encode {i : Instr} (h : WellFormed i = true) : decodeWords (encode i) = .ok i [] := by
  rw [decodeWords_of_start (startBit_ctrlWord i.fields.order), fieldsOfWords_encode]
  exact congrArg (DecodeResult.ok · []) (selectRow_of_wellFormed i h)

/-- Settles O1: the words decode to the command, and the bytes decode as the words they lay out. -/
theorem decodeOfEncodeIsTheCommand : Obligations.DecodeOfEncodeIsTheCommand := by
  intro i rest h
  have hwords := decodeWords_encode h
  refine ⟨hwords, ?_⟩
  rw [encodeBytes, decode_bytesOfWords, hwords]

/-! ### Encoding what was decoded -/

/-- Every bit of a CTRL value (10_state.md R26). -/
theorem ctrlWord_bit (start : Bool) (o : Order) (i : Nat) :
    (ctrlWord start o).getLsbD i = if i = 0 then bitOfOrder o else if i = 1 then start else false := by
  match i with
  | 0 => cases start <;> cases o <;> rfl
  | 1 => cases start <;> cases o <;> rfl
  | i + 2 => cases start <;> cases o <;> simp [ctrlWord, bitOfOrder, BitVec.getLsbD_ofNat, Nat.testBit_add]

theorem bitOfOrder_orderOfBit (b : Bool) : bitOfOrder (orderOfBit b) = b := by cases b <;> rfl

/-- The CTRL value of a decoded command keeps START and ORDER and clears the reserved bits. -/
theorem ctrlWord_of_start {v : Word} (h : startBit v = true) : ctrlWord true (orderOfBit (v.getLsbD 0)) = v &&& 3#32 := by
  apply BitVec.eq_of_getLsbD_eq
  intro i _
  rw [ctrlWord_bit, bitOfOrder_orderOfBit, BitVec.getLsbD_and]
  match i with
  | 0 => exact (Bool.and_true _).symm
  | 1 => exact h.symm.trans (Bool.and_true _).symm
  | i + 2 => simp [BitVec.getLsbD_ofNat, Nat.testBit_add]

/-- Settles O2: the registry keeps code and fields (`selectRow_cases`), so only CTRL can differ. -/
theorem encodeOfDecodeIsTheWords : Obligations.EncodeOfDecodeIsTheWords := by
  intro ws i rest h
  obtain ⟨hstart, rfl⟩ := Machine.decodeWords_ok h
  obtain ⟨hwf, hcode, hfields⟩ := selectRow_cases ws.w0 (fieldsOfWords ws)
  refine ⟨hwf, ?_⟩
  rw [encode, hcode, hfields]
  exact congrArg (CmdWords.mk ws.w0 ws.w1 ws.w2 ws.w3 ws.w4) (ctrlWord_of_start hstart)

/-! ### Decoding bytes -/

/-- START is bit 1 of the first byte of the CTRL word. -/
theorem startBit_of_bytes {w : Word} {bs : List Byte} (h : bytesOfWord w = (bs.drop 20).take 4) :
    startBit w = (bs.getD 20 0).getLsbD 1 := by
  have hbyte : w.extractLsb' 0 8 = bs.getD 20 0 := by
    have hhead := congrArg (·.getD 0 0) h
    simpa [bytesOfWord, List.getD] using hhead
  rw [← hbyte, BitVec.getLsbD_extractLsb']
  rfl

/-- How any byte sequence decodes. -/
theorem decode_cases (bs : List Byte) :
    (bs.length < 24 ∧ decode bs = .reject .tooShort) ∨
    (24 ≤ bs.length ∧ (bs.getD 20 0).getLsbD 1 = false ∧ decode bs = .reject .startClear) ∨
    (24 ≤ bs.length ∧ (bs.getD 20 0).getLsbD 1 = true ∧ ∃ i, decode bs = .ok i (bs.drop 24)) := by
  rcases takeWords_cases bs with ⟨hshort, hnone⟩ | ⟨hlong, ws, hws, h5⟩
  · exact .inl ⟨hshort, by simp only [decode, hnone]⟩
  · rw [← startBit_of_bytes h5]
    cases hstart : startBit ws.w5 with
    | false => exact .inr (.inl ⟨hlong, rfl, by simp only [decode, hws, decodeWords_of_not_start hstart]⟩)
    | true =>
      exact .inr (.inr ⟨hlong, rfl, selectRow ws.w0 (fieldsOfWords ws),
        by simp only [decode, hws, decodeWords_of_start hstart]⟩)

/-- Settles O3: the three cases of `decode_cases` exclude each other. -/
theorem decodeRejectsOnlyShortOrUnstarted : Obligations.DecodeRejectsOnlyShortOrUnstarted := by
  intro bs
  rcases decode_cases bs with ⟨hlen, hd⟩ | ⟨hlen, hbit, hd⟩ | ⟨hlen, hbit, i, hd⟩
  · simp [hd, hlen]
  · rw [hd, hbit]
    simp [hlen]
  · rw [hd, hbit]
    simp [hlen]

/-! ### Codes -/

theorem wellFormed_unsupported (code : Word) (c : CmdFields) :
    WellFormed (.convertUnsupported code c) = true ↔ code ∉ supportedCodes := by
  simp [WellFormed]

/-- Settles O5: the registry answers well-formed commands, and answers every one of them. -/
theorem unlistedCodesAreUnsupported : Obligations.UnlistedCodesAreUnsupported := by
  refine ⟨fun code c => ?_, by decide⟩
  rw [← wellFormed_unsupported code c]
  constructor
  · intro h
    have hwf := (selectRow_cases code c).1
    rwa [h] at hwf
  · exact selectRow_of_wellFormed (.convertUnsupported code c)

/-- Settles O4: each clause is one evaluation of the decoder. -/
theorem wordsOfTheSpecDecode : Obligations.WordsOfTheSpecDecode :=
  ⟨by decide, by decide, by decide, by decide, by decide, by decide⟩

/-- The bytes of a code assembled from four characters are those characters. -/
theorem tagBytes_fourcc (c0 c1 c2 c3 : Byte) : tagBytes (fourcc c0 c1 c2 c3) = [c0, c1, c2, c3] := bytes_word c0 c1 c2 c3

/-- Settles O6: a code and its tag are a word and its bytes. -/
theorem tagIsTheFourCharacters : Obligations.TagIsTheFourCharacters :=
  ⟨fun c0 c1 c2 c3 => congrArg (· ++ [0x00]) (tagBytes_fourcc c0 c1 c2 c3),
   fun code => ⟨_, _, _, _, rfl, wordOfBytes_extract code⟩⟩

end Sys2Proof
end

section
/-! PROOF. The pseudo-instructions of the host: LOADSRC, READDST, and the six writes of CONVERT. -/

namespace Sys2Proof.Machine

/-! ### LOADSRC and READDST -/

theorem step_loadSrc {s : State} {bytes : List Byte} {rest : List HostOp} (hb : s.status.busy = false)
    (hs : s.bus = .loadSrc bytes :: rest) : step s = .next { s with bus := rest, src := s.src.writeList 0 bytes } := by
  simp [step_access hs, hostAccess, hostLoadSrc, hb]

/-- What SRC holds after bytes were stored from offset 0 on. -/
theorem byteAt_src_writeList (s : State) (bus : List HostOp) (bytes : List Byte) (a : Nat) :
    ({ s with bus := bus, src := s.src.writeList 0 bytes } : State).byteAt .src a = bytes.getD a (s.byteAt .src a) := by
  simp only [State.byteAt, Memory.read_writeList, Nat.zero_le, reduceIte, Nat.sub_zero, List.getD]
  cases bytes[a]? <;> rfl

/-- Settles O22: `byteAt_src_writeList` inside the bytes and beyond them. -/
theorem loadSrcFillsTheSource : Obligations.LoadSrcFillsTheSource := by
  intro s bytes rest hb hs
  refine ⟨_, step_loadSrc hb hs, fun a h => ?_, fun a h => ?_, rfl⟩
  · rw [byteAt_src_writeList, List.getD_eq_getElem _ _ h]
  · rw [byteAt_src_writeList, List.getD_eq_default _ _ h]

theorem step_readDst {s : State} {n : Nat} {rest : List HostOp} (hb : s.status.busy = false)
    (hn : n ≤ s.dstLen.toNat) (hs : s.bus = .readDst n :: rest) :
    step s = .next { s with bus := rest, reply := .bytes ((List.range n).map (s.byteAt .dst)) } := by
  rw [step_access hs, hostAccess, hostReadDst, if_neg (by simp [hb]), if_neg (Nat.not_lt.2 hn)]
  rfl

theorem step_readDst_beyond {s : State} {n : Nat} {rest : List HostOp} (hb : s.status.busy = false)
    (hn : s.dstLen.toNat < n) (hs : s.bus = .readDst n :: rest) : step s = .fault .dstReadOutOfRange := by
  simp [step_access hs, hostAccess, hostReadDst, hb, hn]

theorem step_buffer_busy {s : State} {n : Nat} {bytes : List Byte} {rest : List HostOp} (hb : s.status.busy = true)
    (hs : s.bus = .readDst n :: rest ∨ s.bus = .loadSrc bytes :: rest) : step s = .refused .bufferTouchedDuringCommand := by
  rcases hs with hs | hs
  · simp [step_access hs, hostAccess, hostReadDst, hb]
  · simp [step_access hs, hostAccess, hostLoadSrc, hb]

/-- Settles O23, one step lemma for each of its cases. -/
theorem readDstAnswersWithinItsLength : Obligations.ReadDstAnswersWithinItsLength := by
  intro s n bytes rest
  refine ⟨fun hb hn hs => ⟨_, step_readDst hb hn hs, ?_, fun a h => ?_⟩,
    fun hb hn hs => step_readDst_beyond hb hn hs, fun hb hs => step_buffer_busy hb hs⟩
  · rw [List.length_map, List.length_range]
  · rw [List.getElem_map, List.getElem_range]

/-! ### CONVERT -/

/-- A run that begins with the write of a register other than CTRL. -/
theorem run_write (off : Nat) {s : State} {v : Word} {rest : List HostOp} (hb : s.status.busy = false)
    (hs : s.bus = .wr off v :: rest) (h4 : off % 4 = 0) (hc : off ≠ 0x14) {k : Nat} :
    Sys2Proof.core.run (k + 1) s = Sys2Proof.core.run k (writeReg off v { s with bus := rest }) :=
  core_run_succ (step_write hb hs h4 hc) k

/-- The first five writes of CONVERT place the command for the sixth. -/
theorem run_convertOps {s : State} {ws : CmdWords} {rest : List HostOp} (hb : s.status.busy = false)
    (hs : s.bus = convertOps ws ++ rest) :
    Sys2Proof.core.run 6 s = Sys2Proof.core.run 1 (placeCommand ws { s with bus := rest }) := by
  have hstatus : { s.status with busy := false } = s.status := by rw [← hb]
  calc Sys2Proof.core.run 6 s
    _ = Sys2Proof.core.run 5 _ := run_write 0x00 hb hs rfl (by decide)
    _ = Sys2Proof.core.run 4 _ := run_write 0x04 (by exact hb) (by rfl) rfl (by decide)
    _ = Sys2Proof.core.run 3 _ := run_write 0x08 (by exact hb) (by rfl) rfl (by decide)
    _ = Sys2Proof.core.run 2 _ := run_write 0x0C (by exact hb) (by rfl) rfl (by decide)
    _ = Sys2Proof.core.run 1 _ := run_write 0x10 (by exact hb) (by rfl) rfl (by decide)
    _ = Sys2Proof.core.run 1 (placeCommand ws { s with bus := rest }) := by
      rw [placeCommand, hstatus]
      rfl

/-- Settles O26: the placed registers and the CTRL write hold the encoding, which decodes to the command, and the step of a
CTRL write runs what it decodes to (`stepRunsTheDecodedCommand`). -/
theorem convertExpandsToSixWrites : Obligations.ConvertExpandsToSixWrites := by
  intro s i rest hwf hb hs
  obtain ⟨_, hstep⟩ := stepRunsTheDecodedCommand (placeCommand (encode i) { s with bus := rest }) (encode i).w5 rest i []
    rfl rfl (decodeWords_encode hwf)
  have horder : (if (encode i).w5.getLsbD 0 then Order.bgr else .rgb) = i.fields.order := by
    rw [← orderOfBit_eq]
    exact orderOfBit_ctrlWord true i.fields.order
  rw [run_convertOps hb hs, core_run_one, hstep, horder]
  rfl

end Sys2Proof.Machine
end

section
/-! PROOF. The arithmetic of the datapath: the clipper, the chroma terms and the pixel matrix (40_clip_matrix.md). -/

namespace Sys2Proof.Machine

/-! ### The clipper -/

/-- The clipper as one formula over the integers. -/
theorem toNat_clip (x : Int) : ((clip x).toNat : Int) = max 0 (min 255 x) := by
  unfold clip
  split_ifs with hneg hbig
  · change (0 : Int) = _
    omega
  · change (255 : Int) = _
    omega
  · rw [BitVec.toNat_ofInt]
    omega

theorem toNat_clip_of_inside {x : Int} (h0 : 0 ≤ x) (h1 : x ≤ 255) : ((clip x).toNat : Int) = x := by
  rw [toNat_clip, min_eq_right h1, max_eq_right h0]

/-- Clipping a byte changes nothing. -/
@[simp] theorem clip_toNat (y : Byte) : clip (y.toNat : Int) = y := by
  have hy := y.isLt
  have h := toNat_clip_of_inside (x := y.toNat) (by omega) (by omega)
  exact BitVec.eq_of_toNat_eq (Int.ofNat_inj.1 h)

/-- Settles O7: the three branches of the clipper, its formula `toNat_clip`, and `clip_toNat`. -/
theorem clipSaturatesToAByte : Obligations.ClipSaturatesToAByte := by
  refine ⟨fun x => ⟨fun h => if_pos h, fun h => ?_, toNat_clip_of_inside⟩, fun x y h => ?_, fun x => clip_toNat _⟩
  · rw [clip, if_neg (by omega), if_pos h]
  · have hx := toNat_clip x
    have hy := toNat_clip y
    omega

/-! ### The chroma terms -/

/-- A 16-bit register loses nothing of an integer in its signed range. -/
theorem toInt_ofInt_16 {x : Int} (h0 : -32768 ≤ x) (h1 : x < 32768) : (BitVec.ofInt 16 x).toInt = x :=
  BitVec.toInt_ofInt_eq_self (by decide) h0 h1

theorem toInt_u1 (u v : Byte) : (chromaTerms u v).u1.toInt = 129 * ((u.toNat : Int) - 128) / 64 := by
  have hu := u.isLt
  have hform : sar (shl (centred u) 7 + centred u) 6 = 129 * ((u.toNat : Int) - 128) / 64 := by
    simp only [sar, shl, centred]
    omega
  rw [chromaTerms, hform]
  exact toInt_ofInt_16 (by omega) (by omega)

theorem toInt_rg (u v : Byte) :
    (chromaTerms u v).rg.toInt = (3 * ((u.toNat : Int) - 128) + 6 * ((v.toNat : Int) - 128)) / 8 := by
  have hu := u.isLt
  have hv := v.isLt
  have hform : sar (shl (centred u) 1 + centred u + shl (centred v) 2 + shl (centred v) 1) 3 =
      (3 * ((u.toNat : Int) - 128) + 6 * ((v.toNat : Int) - 128)) / 8 := by
    simp only [sar, shl, centred]
    omega
  rw [chromaTerms, hform]
  exact toInt_ofInt_16 (by omega) (by omega)

theorem toInt_v1 (u v : Byte) : (chromaTerms u v).v1.toInt = 3 * ((v.toNat : Int) - 128) / 2 := by
  have hv := v.isLt
  have hform : sar (shl (centred v) 1 + centred v) 1 = 3 * ((v.toNat : Int) - 128) / 2 := by
    simp only [sar, shl, centred]
    omega
  rw [chromaTerms, hform]
  exact toInt_ofInt_16 (by omega) (by omega)

/-- Settles O8, one register at a time. -/
theorem chromaTermsAreClosedForms : Obligations.ChromaTermsAreClosedForms :=
  fun u v => ⟨toInt_u1 u v, toInt_rg u v, toInt_v1 u v⟩

/-- Settles O9: the closed forms are monotone in bytes, so their ends bound them. -/
theorem chromaTermsAndSumsStayInRange : Obligations.ChromaTermsAndSumsStayInRange := by
  intro y u v
  have hy := y.isLt
  have hu := u.isLt
  have hv := v.isLt
  simp only [toInt_u1, toInt_rg, toInt_v1]
  omega

/-! ### The pixel matrix -/

/-- Zero terms leave the luma in every channel (40_clip_matrix.md R112). -/
theorem pixel_zero (y : Byte) : pixel y ⟨0, 0, 0⟩ = ⟨y, y, y⟩ := by simp [pixel]

/-- Settles O10: the sums are the definition; zero terms leave a byte, which the clipper keeps. -/
theorem pixelClipsLumaPlusTerm : Obligations.PixelClipsLumaPlusTerm :=
  ⟨fun _ _ => ⟨rfl, rfl, rfl⟩, pixel_zero⟩

/-- Settles O12: a sum inside 0..255 is what its channel holds, and the two sums share their term. -/
theorem sharedChromaDiffersByLuma : Obligations.SharedChromaDiffersByLuma := by
  intro y y' u v t h
  have hchannels : ∀ z : Byte, z = y ∨ z = y' →
      ((pixel z t).r.toNat : Int) = z.toNat + t.v1.toInt ∧
      ((pixel z t).g.toNat : Int) = z.toNat - t.rg.toInt ∧
      ((pixel z t).b.toNat : Int) = z.toNat + t.u1.toInt := by
    intro z hz
    obtain ⟨⟨r0, r1⟩, ⟨g0, g1⟩, b0, b1⟩ := h z hz
    exact ⟨toNat_clip_of_inside r0 r1, toNat_clip_of_inside g0 g1, toNat_clip_of_inside b0 b1⟩
  obtain ⟨hr, hg, hb⟩ := hchannels y (.inl rfl)
  obtain ⟨hr', hg', hb'⟩ := hchannels y' (.inr rfl)
  omega

/-! ### Neutral chroma -/

/-- Neutral chroma gives grey (40_clip_matrix.md R115): its three terms are zero. -/
theorem pixel_neutral (y : Byte) : pixel y (chromaTerms 128 128) = ⟨y, y, y⟩ := by
  have hterms : chromaTerms 128 128 = ⟨0, 0, 0⟩ := by decide
  rw [hterms, pixel_zero]

/-- A byte of a space is a byte of its pixel, in either order (20_memory.md R59). -/
theorem byteAt_eq_byteOf_pixelAt (t : State) (sp : Space) (o : Order) (a : Nat) :
    t.byteAt sp a = byteOf o (t.pixelAt sp o (a / 3)) (a % 3) := by
  obtain ⟨q, j, hj, rfl⟩ : ∃ q j, j < 3 ∧ a = 3 * q + j := ⟨a / 3, a % 3, Nat.mod_lt _ (by decide), by omega⟩
  rw [Nat.mul_add_div (by decide), Nat.mul_add_mod, Nat.div_eq_of_lt hj, Nat.mod_eq_of_lt hj]
  interval_cases j <;> cases o <;> rfl

/-- Every byte of a grey pixel is its grey value. -/
theorem byteOf_grey (o : Order) (y : Byte) (j : Nat) : byteOf o ⟨y, y, y⟩ j = y := by
  cases o <;> simp [byteOf, chan]

/-- The pixels of a PACKED_YUV422 image, counted one by one. -/
theorem PackedResult.shows {pos : GroupPos} {c : CmdFields} {s t : State} (h : PackedResult pos c s t)
    {q : Nat} (hq : q / 2 < c.w.toNat * c.h.toNat / 2) : t.Shows c q (packedPixel pos (s.byteAt .src) q) := by
  obtain ⟨heven, hodd⟩ := h.pixels (q / 2) hq
  unfold packedPixel
  rcases Nat.mod_two_eq_zero_or_one q with hpar | hpar
  · rw [if_pos hpar]
    rwa [show 2 * (q / 2) = q by omega] at heven
  · rw [if_neg (by omega)]
    rwa [show 2 * (q / 2) + 1 = q by omega] at hodd

/-- A YUYV group whose bytes are all 128 gives grey pixels of 128. -/
theorem packedPixel_uniform {inp : Nat → Byte} {q : Nat} (h : ∀ j, j < 4 → inp (4 * (q / 2) + j) = 128) :
    packedPixel posYUYV inp q = ⟨128, 128, 128⟩ := by
  have hluma : inp (4 * (q / 2) + (if q % 2 = 0 then posYUYV.y0 else posYUYV.y1)) = 128 := by
    split
    · exact h 0 (by decide)
    · exact h 2 (by decide)
  rw [packedPixel, hluma, show inp (4 * (q / 2) + posYUYV.u) = 128 from h 1 (by decide),
    show inp (4 * (q / 2) + posYUYV.v) = 128 from h 3 (by decide), pixel_neutral]

/-- Settles O11: every pixel of the YUYV image is the grey pixel of its group, and each of its bytes that grey. -/
theorem neutralChromaGivesGrey : Obligations.NeutralChromaGivesGrey := by
  refine ⟨pixel_neutral, fun c s hs hv hc hsrc => ?_⟩
  have houtcomes := packed_outcomes (pos := posYUYV) (make := .convertYUYV) fun _ _ => rfl
  obtain ⟨_, _, hsuccess⟩ := houtcomes c s hs
  obtain ⟨t, ht, hsucc, ⟨hpacked, _⟩, _⟩ := hsuccess hv hc
  obtain ⟨hw, hh⟩ := hv.even (.inl rfl)
  have harea := area_eq_of_even hw hh
  refine ⟨t, ht, hsucc.result, fun a ha => ?_⟩
  obtain ⟨hpixel, _⟩ := hpacked.shows (q := a / 3) (by omega)
  rw [byteAt_eq_byteOf_pixelAt t .dst c.order a, hpixel, packedPixel_uniform fun j hj => hsrc _ (by omega), byteOf_grey]

end Sys2Proof.Machine
end

section
/-! PROOF. The statements about CONVERT RGB3 and CONVERT BGR3 (41_direct_swap.md): the command's outcomes, and the
round trip. -/

namespace Sys2Proof.Machine

theorem direct_outcomes_withoutScratch {native : Order} {make : CmdFields → Instr}
    (hexec : ∀ c s, exec (make c) s = .next (runCommand .packedRgb24 c (directPipeline native c) s)) :
    OutcomesWithoutScratch .packedRgb24 make (DirectResult native) :=
  ((direct_outcomes hexec).mono fun _ _ _ ⟨⟨himage, _⟩, _⟩ => himage).withoutScratch

/-- Settles O27: both commands are one pipeline, with two native orders. -/
theorem directCommandsCopyOrSwap : Obligations.DirectCommandsCopyOrSwap :=
  ⟨fun c => selectRow_of_wellFormed (.convertRGB3 c) rfl, fun c => selectRow_of_wellFormed (.convertBGR3 c) rfl,
   direct_outcomes_withoutScratch fun _ _ => rfl, direct_outcomes_withoutScratch fun _ _ => rfl⟩

/-! ### The round trip (41_direct_swap.md R135) -/

/-- The offset of the source byte that SWAP puts at an offset: first and third byte of a pixel exchanged
(41_direct_swap.md R132). -/
def swapOffset (a : Nat) : Nat := 3 * (a / 3) + (2 - a % 3)

theorem swapOffset_first (q : Nat) : swapOffset (3 * q) = 3 * q + 2 := by
  unfold swapOffset
  omega

theorem swapOffset_second (q : Nat) : swapOffset (3 * q + 1) = 3 * q + 1 := by
  unfold swapOffset
  omega

theorem swapOffset_third (q : Nat) : swapOffset (3 * q + 2) = 3 * q := by
  unfold swapOffset
  omega

theorem swapOffset_swapOffset (a : Nat) : swapOffset (swapOffset a) = a := by
  unfold swapOffset
  omega

theorem swapOffset_lt {a n : Nat} (h : a < 3 * n) : swapOffset a < 3 * n := by
  unfold swapOffset
  omega

/-- The swapped image, byte by byte. -/
theorem DirectResult.byteAt_dst_of_swapped {native : Order} {c : CmdFields} {s t : State} (h : DirectResult native c s t)
    (ho : c.order ≠ native) {a : Nat} (ha : a < 3 * (c.w.toNat * c.h.toNat)) :
    t.byteAt .dst a = s.byteAt .src (swapOffset a) := by
  obtain ⟨q, hq⟩ : ∃ q, a = 3 * q ∨ a = 3 * q + 1 ∨ a = 3 * q + 2 := ⟨a / 3, by omega⟩
  obtain ⟨hfirst, hsecond, hthird⟩ := h.swapped ho q (by omega)
  obtain rfl | rfl | rfl := hq
  · rwa [swapOffset_first]
  · rwa [swapOffset_second]
  · rwa [swapOffset_third]

/-- A direct command asked for the other order completes and swaps every pixel. -/
theorem exec_swaps {native : Order} {make : CmdFields → Instr}
    (houtcomes : OutcomesWithoutScratch .packedRgb24 make (DirectResult native)) {c : CmdFields} {s : State}
    (hs : s.ScratchFree) (hv : Valid .packedRgb24 c) (ho : c.order ≠ native) :
    ∃ t, exec (make c) s = .next t ∧ t.status.result = 0 ∧
      ∀ a, a < 3 * (c.w.toNat * c.h.toNat) → t.byteAt .dst a = s.byteAt .src (swapOffset a) := by
  obtain ⟨_, hsuccess⟩ := houtcomes c s hs
  obtain ⟨t, ht, hsucc, himage⟩ := hsuccess hv
  exact ⟨t, ht, hsucc.result, fun _ ha => himage.byteAt_dst_of_swapped ho ha⟩

/-- Settles O35: each of the three runs swaps, and a swap undoes a swap (`swapOffset_swapOffset`). -/
theorem swapRoundTripRestoresTheSource : Obligations.SwapRoundTripRestoresTheSource := by
  intro c s t s' ho hv hs hs' ht hfed
  obtain ⟨_, _, hrgb3, hbgr3⟩ := directCommandsCopyOrSwap
  obtain ⟨t', ht', _, hforth⟩ := exec_swaps hrgb3 hs hv (by simp [ho])
  obtain rfl : t' = t := by simpa [ht] using ht'.symm
  have hback : ∀ a, a < 3 * (c.w.toNat * c.h.toNat) → s'.byteAt .src (swapOffset a) = s.byteAt .src a := by
    intro a ha
    have hlt := swapOffset_lt ha
    rw [hfed _ hlt, hforth _ hlt, swapOffset_swapOffset]
  obtain ⟨u, hu, hresult, hswap⟩ := exec_swaps hrgb3 hs' hv (by simp [ho])
  obtain ⟨v, hv', hresult', hswap'⟩ := exec_swaps (c := { c with order := .rgb }) hbgr3 hs' { hv with } (by simp)
  exact ⟨⟨u, hu, hresult, fun a ha => (hswap a ha).trans (hback a ha)⟩,
    ⟨v, hv', hresult', fun a ha => (hswap' a ha).trans (hback a ha)⟩⟩

end Sys2Proof.Machine
end

section
/-! PROOF. The statements about CONVERT RGBP (42_rgb565.md): the default unpack, and the command's outcomes. -/

namespace Sys2Proof.Machine

/-- A field with zeros below it is the shifted word under a mask: the shift brings the field to bit `k`
(`hshift`), the mask drops the bits below (`hmask`). -/
theorem extractLsb'_append_zero_eq_masked {w lo n k : Nat} {t shifted mask : BitVec w}
    (hshift : ∀ i, i < n → shifted.getLsbD (k + i) = t.getLsbD (lo + i))
    (hmask : ∀ j, j < n + k → mask.getLsbD j = decide (k ≤ j)) :
    t.extractLsb' lo n ++ 0#k = (shifted &&& mask).truncate (n + k) := by
  refine BitVec.eq_of_getLsbD_eq fun j hj => ?_
  rw [BitVec.getLsbD_append, BitVec.getLsbD_zero, BitVec.truncate_eq_setWidth, BitVec.getLsbD_setWidth,
    BitVec.getLsbD_and, hmask j hj]
  by_cases hk : j < k
  · simp [hk]
  · have hfield := hshift (j - k) (by omega)
    rw [Nat.add_sub_of_le (by omega)] at hfield
    simp [hk, hj, hfield, show j - k < n by omega, show k ≤ j by omega]

/-- Settles O14: each channel is a field with zeros below it (`extractLsb'_append_zero_eq_masked`). -/
theorem defaultUnpackShiftsAndMasks : Obligations.DefaultUnpackShiftsAndMasks := by
  refine fun t => ⟨extractLsb'_append_zero_eq_masked (fun i _ => ?_) (by decide),
    extractLsb'_append_zero_eq_masked (fun i _ => ?_) (by decide),
    extractLsb'_append_zero_eq_masked (fun i hi => ?_) (by decide)⟩
  · rw [BitVec.getLsbD_ushiftRight, ← Nat.add_assoc]
  · rw [BitVec.getLsbD_ushiftRight, ← Nat.add_assoc]
  · simp [show 3 + i < 16 by omega, show i < 16 by omega]

/-- Settles O28: the command is the RGB565 pipeline, whose outcomes include the image. -/
theorem rgbpUnpacksEveryPixel : Obligations.RgbpUnpacksEveryPixel :=
  ⟨fun c => selectRow_of_wellFormed (.convertRGBP c) rfl,
   (rgb565_outcomes fun _ _ => rfl).mono fun _ _ _ ⟨⟨himage, _⟩, _⟩ => himage⟩

end Sys2Proof.Machine
end

section
/-! PROOF. The statement about CONVERT YUYV, YVYU and UYVY (43_packed_yuv422.md): the commands' outcomes. -/

namespace Sys2Proof.Machine

/-- What `packed_outcomes` says of the image and its frame, without the working registers. -/
theorem packed_outcomes_image {pos : GroupPos} {make : CmdFields → Instr}
    (hexec : ∀ c s, exec (make c) s = .next (runCommand .packedYuv422 c (packedPipeline pos c) s)) :
    Outcomes .packedYuv422 make singleStageNeed (PackedResult pos) :=
  (packed_outcomes hexec).mono fun _ _ _ ⟨⟨himage, _⟩, _⟩ => himage

/-- Settles O29: the three commands are one pipeline, each with its own byte positions in a group. -/
theorem packedCommandsConvertEveryGroup : Obligations.PackedCommandsConvertEveryGroup :=
  ⟨fun c => selectRow_of_wellFormed (.convertYUYV c) rfl, fun c => selectRow_of_wellFormed (.convertYVYU c) rfl,
   fun c => selectRow_of_wellFormed (.convertUYVY c) rfl,
   packed_outcomes_image (pos := posYUYV) fun _ _ => rfl, packed_outcomes_image (pos := posYVYU) fun _ _ => rfl,
   packed_outcomes_image (pos := posUYVY) fun _ _ => rfl⟩

end Sys2Proof.Machine
end

section
/-! PROOF. The statements about CONVERT YU12 and CONVERT YV12 (44_planar_yuv420.md): the commands' outcomes, and the
row and column parity of the image. -/

namespace Sys2Proof.Machine

/-- What `planar_outcomes` says of the image and its frame, without the working registers. -/
theorem planar_outcomes_image {pl : Nat → PlaneBases} {make : CmdFields → Instr}
    (hexec : ∀ c s, exec (make c) s =
      .next (runCommand .planarYuv420 c (planarPipeline (pl (c.w.toNat * c.h.toNat)) c) s)) :
    Outcomes .planarYuv420 make singleStageNeed (PlanarResult (fun n => (pl n).ub) (fun n => (pl n).vb)) :=
  (planar_outcomes hexec).mono fun _ _ _ ⟨⟨himage, _⟩, _⟩ => himage

/-- Settles O30: both commands are one pipeline, the two chroma planes in either order. -/
theorem planarCommandsReplicateChroma : Obligations.PlanarCommandsReplicateChroma :=
  ⟨fun c => selectRow_of_wellFormed (.convertYU12 c) rfl, fun c => selectRow_of_wellFormed (.convertYV12 c) rfl,
   planar_outcomes_image (pl := fun n => ⟨n, 5 * n / 4⟩) fun _ _ => rfl,
   planar_outcomes_image (pl := fun n => ⟨5 * n / 4, n⟩) fun _ _ => rfl⟩

/-! ### Row and column parity (44_planar_yuv420.md R175) -/

/-- The position of a pixel lies inside the Y plane (44_planar_yuv420.md R170). -/
theorem position_lt_area {w h r k : Nat} (hr : r < h) (hk : k < w) : r * w + k < w * h := by
  rw [Nat.add_comm, Nat.mul_comm r w]
  exact Nat.add_mul_lt_mul_of_lt_of_lt hk hr

/-- Where the Y plane is uniform, a pixel equals the first one of its 2 by 2 block: both have the block's chroma
samples. -/
theorem PlanarResult.pixelAt_eq_blockOrigin {ub vb : Nat → Nat} {c : CmdFields} {s t : State} {y : Byte}
    (h : PlanarResult ub vb c s t) (hluma : ∀ a, a < c.w.toNat * c.h.toNat → s.byteAt .src a = y)
    {r k : Nat} (hr : r < c.h.toNat) (hk : k < c.w.toNat) :
    t.pixelAt .dst c.order (r * c.w.toNat + k) = t.pixelAt .dst c.order (2 * (r / 2) * c.w.toNat + 2 * (k / 2)) := by
  have hr' : 2 * (r / 2) < c.h.toNat := (Nat.mul_div_le r 2).trans_lt hr
  have hk' : 2 * (k / 2) < c.w.toNat := (Nat.mul_div_le k 2).trans_lt hk
  obtain ⟨hpixel, _⟩ := h.pixels r k hr hk
  obtain ⟨horigin, _⟩ := h.pixels (2 * (r / 2)) (2 * (k / 2)) hr' hk'
  rw [hpixel, horigin, hluma _ (position_lt_area hr hk), hluma _ (position_lt_area hr' hk'),
    Nat.mul_div_cancel_left (r / 2) two_pos, Nat.mul_div_cancel_left (k / 2) two_pos]

/-- Settles O36, from the image of O30: the formula reads the chroma planes at the halves of row and column. -/
theorem planarRowPairsAreAlike : Obligations.PlanarRowPairsAreAlike := by
  intro c s make y hmake hs hv hc hluma
  obtain ⟨_, _, hyu12, hyv12⟩ := planarCommandsReplicateChroma
  obtain ⟨ub, vb, houtcomes⟩ :
      ∃ ub vb, Outcomes .planarYuv420 make singleStageNeed (PlanarResult ub vb) := by
    obtain rfl | rfl := hmake
    · exact ⟨_, _, hyu12⟩
    · exact ⟨_, _, hyv12⟩
  obtain ⟨_, _, hsuccess⟩ := houtcomes c s hs
  obtain ⟨t, ht, hsucc, himage⟩ := hsuccess hv hc
  exact ⟨t, ht, hsucc.result, fun _ _ hr hk => himage.pixelAt_eq_blockOrigin hluma hr hk⟩

end Sys2Proof.Machine
end

section
/-! PROOF. The statements about the vendor layouts (45_vendor_two_stage.md): the rebias, the stage UNPACK, and the
outcomes of CONVERT S501, S505 and S508. -/

namespace Sys2Proof.Machine

/-! ### The rebias (45_vendor_two_stage.md R190) -/

/-- The rebias inverts bit 7 and no other. -/
theorem getLsbD_rebias (b : Byte) (j : Nat) : (rebias b).getLsbD j = (b.getLsbD j ^^ decide (j = 7)) := by
  have hmask : (0x80#8).getLsbD j = decide (j = 7) := by
    rw [show (0x80#8) = BitVec.twoPow 8 7 by decide, BitVec.getLsbD_twoPow]
    simp [eq_comm]
  rw [rebias, BitVec.getLsbD_xor, hmask]

theorem rebias_eq_add (b : Byte) : rebias b = b + 128#8 := by
  revert b
  decide

theorem rebias_rebias (b : Byte) : rebias (rebias b) = b := by
  rw [rebias, rebias, BitVec.xor_assoc, BitVec.xor_self, BitVec.xor_zero]

/-- Settles O13, from the rebias as a sum, bit by bit, and as an involution. -/
theorem rebiasFlipsTheSignBit : Obligations.RebiasFlipsTheSignBit := by
  refine fun b => ⟨?_, ?_, fun j hj => ?_, rebias_rebias b⟩
  · rw [rebias_eq_add, BitVec.toNat_add]; rfl
  · rw [getLsbD_rebias, decide_eq_true rfl, Bool.xor_true]
  · rw [getLsbD_rebias, decide_eq_false hj.ne, Bool.xor_false]

/-! ### The stage UNPACK (45_vendor_two_stage.md R193, R198) -/

/-- Settles O33: the stage writes `unpackByte` over the whole intermediate (`unpackLoop_read`), and `unpackByte` is the
intermediate line by line (`planarOf_unpackByte`). -/
theorem unpackBuildsThePlanarIntermediate : Obligations.UnpackBuildsThePlanarIntermediate := by
  intro ln w h inp p hw hh
  refine ⟨⟨unpackByte ln inp w h, fun a ha => ?_, planarOf_unpackByte hw hh fun _ _ => rfl⟩, fun a ha => ?_,
    unpackLoop_work ln w h inp p⟩
  · rw [unpackLoop_read ln hw hh, if_pos ha]
  · rw [unpackLoop_read ln hw hh, if_neg (Nat.not_lt.2 ha)]

/-- Two runs of UNPACK leave the same bytes exactly when the intermediates of their sources agree. -/
theorem unpackLoop_read_eq_iff (ln : LineOffsets) {w h : Nat} (hw : w % 2 = 0) (hh : h % 2 = 0)
    (inp inp' : Nat → Byte) (p p' : Pass) {a : Nat} (ha : a < 3 * (w * h) / 2) :
    (unpackLoop ln w h inp p).out.read a = (unpackLoop ln w h inp' p').out.read a ↔
      unpackByte ln inp w h a = unpackByte ln inp' w h a := by
  rw [unpackLoop_read ln hw hh, unpackLoop_read ln hw hh, if_pos ha, if_pos ha, Option.some.injEq]

/-- Each offset of the source frame lies in one of its `h / 2` groups of `3 * w` bytes. -/
theorem exists_group_of_lt_frame {w h a : Nat} (hh : h % 2 = 0) (ha : a < 3 * (w * h) / 2) :
    ∃ g x, g < h / 2 ∧ x < 3 * w ∧ a = 3 * w * g + x := by
  obtain ⟨n, rfl⟩ : 2 ∣ h := Nat.dvd_of_mod_eq_zero hh
  have hsize : 3 * (w * (2 * n)) / 2 = 3 * w * n := by
    rw [show 3 * (w * (2 * n)) = 2 * (3 * w * n) by ring, Nat.mul_div_cancel_left _ two_pos]
  rw [hsize] at ha
  rw [Nat.mul_div_cancel_left n two_pos]
  exact ⟨a / (3 * w), a % (3 * w), Nat.div_lt_of_lt_mul ha, Nat.mod_lt _ (Nat.pos_of_lt_mul_right ha),
    (Nat.div_add_mod a (3 * w)).symm⟩

/-- An intermediate determines its source: the lines cover each group (`lines_cover`), and the rebias is injective. -/
theorem PlanarOf.source_unique {ln : LineOffsets} {w h : Nat} {inp inp' mid : Nat → Byte} (hw : w % 2 = 0)
    (hh : h % 2 = 0) (hl : ln = linesA w ∨ ln = linesB w ∨ ln = linesC w) (hmid : PlanarOf ln w h inp mid)
    (hmid' : PlanarOf ln w h inp' mid) {a : Nat} (ha : a < 3 * (w * h) / 2) : inp a = inp' a := by
  obtain ⟨hluma, hchroma⟩ := hmid
  obtain ⟨hluma', hchroma'⟩ := hmid'
  obtain ⟨g, x, hg, hx, rfl⟩ := exists_group_of_lt_frame hh ha
  apply rebias_inj
  obtain ⟨k, hk, hline⟩ | ⟨k, hk, hline⟩ := lines_cover hw hl hx
  · obtain ⟨hy0, hy1⟩ := hluma g k hg hk
    obtain ⟨hy0', hy1'⟩ := hluma' g k hg hk
    obtain rfl | rfl := hline
    · rw [← Nat.add_assoc, ← hy0, hy0']
    · rw [← Nat.add_assoc, ← hy1, hy1']
  · obtain ⟨hu, hv⟩ := hchroma g k hg hk
    obtain ⟨hu', hv'⟩ := hchroma' g k hg hk
    obtain rfl | rfl := hline
    · rw [← Nat.add_assoc, ← hu, hu']
    · rw [← Nat.add_assoc, ← hv, hv']

/-- Settles O34: each byte of the intermediate comes from one source byte (`unpackByte_source`), and the intermediate
determines the source (`PlanarOf.source_unique`). -/
theorem unpackLosesNoSourceByte : Obligations.UnpackLosesNoSourceByte := by
  intro w h ln inp inp' p p' hw hh hl
  constructor
  · intro hread a ha
    have hmid : ∀ b, b < 3 * (w * h) / 2 → unpackByte ln inp w h b = unpackByte ln inp' w h b :=
      fun b hb => (unpackLoop_read_eq_iff ln hw hh inp inp' p p' hb).1 (hread b hb)
    exact PlanarOf.source_unique hw hh hl (planarOf_unpackByte hw hh fun _ _ => rfl) (planarOf_unpackByte hw hh hmid) ha
  · intro hsource a ha
    obtain ⟨b, hb, hbyte⟩ := unpackByte_source hw hh hl ha
    rw [unpackLoop_read_eq_iff ln hw hh inp inp' p p' ha, hbyte, hbyte, hsource b hb]

/-! ### The commands (45_vendor_two_stage.md R194 to R197) -/

/-- What `vendor_outcomes` says of the image, the intermediate and their frame, without the working registers. -/
theorem vendor_outcomes_image {lines : Nat → LineOffsets} {make : CmdFields → Instr}
    (hexec : ∀ c s, exec (make c) s = .next (runCommand .vendor c (vendorPipeline (lines c.w.toNat) c) s)) :
    Outcomes .vendor make vendorNeed (VendorResult lines) :=
  (vendor_outcomes hexec).mono fun _ _ _ ⟨⟨himage, _⟩, _⟩ => himage

/-- Settles O31: the three commands are one pipeline, each with its own line offsets in a group. -/
theorem vendorCommandsEqualOneFormula : Obligations.VendorCommandsEqualOneFormula :=
  ⟨fun c => selectRow_of_wellFormed (.convertS501 c) rfl, fun c => selectRow_of_wellFormed (.convertS505 c) rfl,
   fun c => selectRow_of_wellFormed (.convertS508 c) rfl,
   vendor_outcomes_image (lines := linesA) fun _ _ => rfl, vendor_outcomes_image (lines := linesB) fun _ _ => rfl,
   vendor_outcomes_image (lines := linesC) fun _ _ => rfl⟩

end Sys2Proof.Machine
end

section
/-! PROOF. The statements about the dispatcher (46_dispatcher.md): how a command ends, by its class and its arguments,
what its end depends on, the scratch controller, and which accesses run the engine. -/

namespace Sys2Proof.Machine

/-! ### The end of a command -/

/-- Every command answers a next state (46_dispatcher.md R223, R224). -/
theorem exec_total (i : Instr) (s : State) : ∃ t, exec i s = .next t := by
  obtain ⟨a, ha, _⟩ := exec_steady i s
  exact ⟨_, ha⟩

theorem exec_deterministic {i : Instr} {s t t' : State} (h : exec i s = .next t) (h' : exec i s = .next t') : t = t' :=
  Host.Outcome.next.inj (h.symm.trans h')

/-- Settles O39: a command fails or succeeds (`exec_ends`), and either end is idle, with DONE set. -/
theorem everyCommandEndsIdleAndDone : Obligations.EveryCommandEndsIdleAndDone := by
  intro i s
  obtain ⟨t, ht⟩ := exec_total i s
  rcases exec_ends ht with ⟨_, hfail⟩ | ⟨hsucc, _⟩
  · exact ⟨t, ht, hfail.idle, by rw [hfail.status], hfail.kept⟩
  · exact ⟨t, ht, hsucc.idle, by rw [hsucc.status], hsucc.kept⟩

/-- An unsupported code fails from any state; of the scratch only the allocation bits change (46_dispatcher.md R221). -/
theorem exec_convertUnsupported (code : Word) (c : CmdFields) (s : State) :
    ∃ t, exec (.convertUnsupported code c) s = .next t ∧ Failed (.unsupportedFormat code) c s t ∧
      t.work = s.work ∧ t.scry = { s.scry with alloc := false } ∧ t.scrr = { s.scrr with alloc := false } :=
  ⟨raise (.unsupportedFormat code) c.dstLen.toNat (s.enter .check), rfl, failed_raise _ c (untouched_enter s _) rfl,
    by simp, by simp, by simp⟩

/-- Settles O32: the registry answers the default row for the code (`unlistedCodesAreUnsupported`), and that row raises. -/
theorem unsupportedCodeEndsInItsError : Obligations.UnsupportedCodeEndsInItsError :=
  ⟨fun code c h => (unlistedCodesAreUnsupported.1 code c).2 h, exec_convertUnsupported⟩

theorem exec_unsupported {i : Instr} (hi : classOf i = .unsupported) (s : State) :
    ∃ t, exec i s = .next t ∧ Failed (.unsupportedFormat i.code) i.fields s t := by
  cases i with
  | convertUnsupported code c =>
    obtain ⟨t, ht, hfail, _⟩ := exec_convertUnsupported code c s
    exact ⟨t, ht, hfail⟩
  | _ => cases hi

theorem exec_invalid {i : Instr} {s : State} (hi : classOf i ≠ .unsupported) (hs : s.ScratchFree)
    (hv : ¬ Valid (classOf i) i.fields) : ∃ t, exec i s = .next t ∧ Failed .invalidArgument i.fields s t := by
  obtain ⟨make, _, hmake, houtcomes⟩ := outcomes_of_supported i hi
  obtain ⟨hinvalid, _⟩ := houtcomes i.fields s hs
  obtain ⟨t, ht, hfail, _⟩ := hinvalid hv
  exact ⟨t, by rwa [hmake] at ht, hfail⟩

theorem exec_refused {i : Instr} {s : State} (hi : classOf i ≠ .unsupported) (hs : s.ScratchFree)
    (hv : Valid (classOf i) i.fields) (hc : ¬ s.CapHolds (scratchNeed (classOf i) i.fields)) :
    ∃ t, exec i s = .next t ∧ Failed .allocationFailure i.fields s t := by
  obtain ⟨make, _, hmake, houtcomes⟩ := outcomes_of_supported i hi
  obtain ⟨_, hrefused, _⟩ := houtcomes i.fields s hs
  obtain ⟨t, ht, hfail, _⟩ := hrefused hv hc
  exact ⟨t, by rwa [hmake] at ht, hfail⟩

theorem exec_failed_result {i : Instr} {k : ErrKind} {c : CmdFields} {s t : State} (ht : exec i s = .next t)
    (h : ∃ u, exec i s = .next u ∧ Failed k c s u) : t.status.result = resultCode k := by
  obtain ⟨u, hu, hfail⟩ := h
  rw [exec_deterministic ht hu, hfail.status]

/-- Settles O40: each clause is one way for a command to end, and a command has only one end. -/
theorem resultFollowsThePriority : Obligations.ResultFollowsThePriority := by
  intro i s t hs ht
  refine ⟨fun hi => exec_failed_result ht (exec_unsupported hi s),
    fun hi hv => exec_failed_result ht (exec_invalid hi hs hv),
    fun hi hv hc => exec_failed_result ht (exec_refused hi hs hv hc), fun hi hv hc => ?_⟩
  obtain ⟨u, hu, hsucc, _⟩ := exec_success hi hs hv hc
  rw [exec_deterministic ht hu]
  exact hsucc.result

/-! ### What a command's end depends on (46_dispatcher.md R210, R219, R222) -/

/-- The inputs of a command are the same: the parameters and the source bytes its class reads (20_memory.md R62). -/
structure SameInputs (cls : LayoutClass) (c : CmdFields) (s s' : State) : Prop where
  params : s'.params = s.params
  source : ∀ a, a < layoutSize cls c.w.toNat c.h.toNat → s'.byteAt .src a = s.byteAt .src a

/-- Two commands with the fields `c` ended alike: in STATUS, in the image of a success, in the message of a failure. -/
def SameEnd (c : CmdFields) (t t' : State) : Prop :=
  t'.status = t.status ∧
  (t.status.result = 0 → ∀ a, a < 3 * (c.w.toNat * c.h.toNat) → t'.byteAt .dst a = t.byteAt .dst a) ∧
  (t.status.result ≠ 0 → t'.errmsg = t.errmsg)

/-- Failures of one kind end alike: the kind fixes STATUS and all of ERRMSG. -/
theorem Failed.sameEnd {k : ErrKind} {c : CmdFields} {s s' t t' : State} (h : Failed k c s t) (h' : Failed k c s' t') :
    SameEnd c t t' := by
  refine ⟨h'.status.trans h.status.symm, fun hresult => absurd hresult h.result_ne_zero, fun _ => ?_⟩
  refine Vector.ext fun j hj => ?_
  exact (h'.errmsg ⟨j, hj⟩).trans (h.errmsg ⟨j, hj⟩).symm

theorem Succeeded.sameEnd {c : CmdFields} {s s' t t' : State} (h : Succeeded c s t) (h' : Succeeded c s' t')
    (himage : ∀ a, a < 3 * (c.w.toNat * c.h.toNat) → t'.byteAt .dst a = t.byteAt .dst a) : SameEnd c t t' :=
  ⟨h'.status.trans h.status.symm, fun _ => himage, fun hresult => absurd h.result hresult⟩

/-- The result of a class gives the same image for the same inputs, whatever else the states hold. -/
def ImageFromInputs (cls : LayoutClass) (result : CmdFields → State → State → Prop) : Prop :=
  ∀ (c : CmdFields) (s s' t t' : State), Valid cls c → SameInputs cls c s s' → result c s t → result c s' t' →
    ∀ a, a < 3 * (c.w.toNat * c.h.toNat) → t'.byteAt .dst a = t.byteAt .dst a

/-- Two states that show the same pixels hold the same image. -/
theorem image_eq_of_shows {c : CmdFields} {t t' : State}
    (h : ∀ q, q < c.w.toNat * c.h.toNat → ∃ px, t.Shows c q px ∧ t'.Shows c q px) {a : Nat}
    (ha : a < 3 * (c.w.toNat * c.h.toNat)) : t'.byteAt .dst a = t.byteAt .dst a := by
  refine bytes_of_pixelAt (o := c.order) (fun q hq => ?_) ha
  obtain ⟨px, ⟨hdst, _⟩, hdst', _⟩ := h q hq
  exact hdst'.trans hdst.symm

/-- Every pixel number is the position of a row and a column. -/
theorem exists_position_of_lt_area {w h q : Nat} (hq : q < w * h) : ∃ r k, r < h ∧ k < w ∧ q = r * w + k :=
  ⟨q / w, q % w, Nat.div_lt_of_lt_mul hq, Nat.mod_lt _ (Nat.pos_of_lt_mul_right hq), (Nat.div_add_mod' q w).symm⟩

theorem directResult_imageFromInputs (native : Order) : ImageFromInputs .packedRgb24 (DirectResult native) := by
  intro c s s' t t' _ hin h h' a ha
  by_cases ho : c.order = native
  · rw [h'.copied ho a ha, h.copied ho a ha, hin.source a ha]
  · rw [h'.byteAt_dst_of_swapped ho ha, h.byteAt_dst_of_swapped ho ha, hin.source _ (swapOffset_lt ha)]

theorem rgb565Result_imageFromInputs : ImageFromInputs .rgb565 Rgb565Result := by
  intro c s s' t t' _ hin h h' a ha
  refine image_eq_of_shows (fun q hq => ⟨_, h.pixels q hq, ?_⟩) ha
  have hword : 2 * q + 1 < layoutSize .rgb565 c.w.toNat c.h.toNat := by
    simp only [layoutSize]
    omega
  rw [← hin.params, ← hin.source _ hword, ← hin.source (2 * q) (by omega)]
  exact h'.pixels q hq

/-- A pixel of a PACKED_YUV422 image depends on the four bytes of its group only. -/
theorem packedPixel_congr {pos : GroupPos} (hpos : pos.y0 < 4 ∧ pos.u < 4 ∧ pos.y1 < 4 ∧ pos.v < 4)
    {inp inp' : Nat → Byte} {q : Nat} (h : ∀ j, j < 4 → inp' (4 * (q / 2) + j) = inp (4 * (q / 2) + j)) :
    packedPixel pos inp' q = packedPixel pos inp q := by
  obtain ⟨hy0, hu, hy1, hv⟩ := hpos
  have hluma : (if q % 2 = 0 then pos.y0 else pos.y1) < 4 := by
    split
    · exact hy0
    · exact hy1
  rw [packedPixel, packedPixel, h _ hluma, h _ hu, h _ hv]

theorem packedResult_imageFromInputs {pos : GroupPos} (hpos : pos.y0 < 4 ∧ pos.u < 4 ∧ pos.y1 < 4 ∧ pos.v < 4) :
    ImageFromInputs .packedYuv422 (PackedResult pos) := by
  intro c s s' t t' hv hin h h' a ha
  obtain ⟨hw, hh⟩ := hv.even (.inl rfl)
  have harea := area_eq_of_even hw hh
  refine image_eq_of_shows (fun q hq => ⟨_, h.shows (by omega), ?_⟩) ha
  rw [← packedPixel_congr hpos fun j hj => hin.source _ (by simp only [layoutSize]; omega)]
  exact h'.shows (by omega)

/-- The position of a chroma sample lies inside its plane, a quarter of the Y plane (44_planar_yuv420.md R170). -/
theorem chromaPosition_lt {w h r k : Nat} (hw : w % 2 = 0) (hh : h % 2 = 0) (hr : r < h) (hk : k < w) :
    r / 2 * (w / 2) + k / 2 < w * h / 4 := by
  have harea := area_eq_of_even hw hh
  have hpos := position_lt_area (show r / 2 < h / 2 by omega) (show k / 2 < w / 2 by omega)
  rw [Nat.mul_comm (w / 2)] at hpos
  omega

/-- Both chroma planes lie inside the frame: they begin at 5/4 of the Y plane at the latest. -/
theorem planarResult_imageFromInputs {ub vb : Nat → Nat} (hub : ∀ n, ub n ≤ 5 * n / 4) (hvb : ∀ n, vb n ≤ 5 * n / 4) :
    ImageFromInputs .planarYuv420 (PlanarResult ub vb) := by
  intro c s s' t t' hv hin h h' a ha
  obtain ⟨hw, hh⟩ := hv.even (.inr (.inl rfl))
  have harea := area_eq_of_even hw hh
  refine image_eq_of_shows (fun q hq => ?_) ha
  obtain ⟨r, k, hr, hk, rfl⟩ := exists_position_of_lt_area hq
  have hchroma := chromaPosition_lt hw hh hr hk
  have hub := hub (c.w.toNat * c.h.toNat)
  have hvb := hvb (c.w.toNat * c.h.toNat)
  have hinside : ∀ x, x < 3 * (c.w.toNat * c.h.toNat) / 2 → s'.byteAt .src x = s.byteAt .src x := hin.source
  refine ⟨_, h.pixels r k hr hk, ?_⟩
  rw [← hinside (r * c.w.toNat + k) (by omega), ← hinside (ub _ + _) (by omega), ← hinside (vb _ + _) (by omega)]
  exact h'.pixels r k hr hk

theorem vendorResult_imageFromInputs {lines : Nat → LineOffsets}
    (hl : ∀ w, lines w = linesA w ∨ lines w = linesB w ∨ lines w = linesC w) :
    ImageFromInputs .vendor (VendorResult lines) := by
  intro c s s' t t' hv hin h h' a ha
  obtain ⟨hw, hh⟩ := hv.even (.inr (.inr rfl))
  obtain ⟨hlineY0, hlineY1, hlineU, hlineV⟩ := lines_inside hw (hl c.w.toNat)
  refine image_eq_of_shows (fun q hq => ?_) ha
  obtain ⟨r, k, hr, hk, rfl⟩ := exists_position_of_lt_area hq
  have hgroup : r / 2 < c.h.toNat / 2 := by omega
  have hcol : k / 2 < c.w.toNat / 2 := by omega
  have hluma : (if r % 2 = 0 then (lines c.w.toNat).y0 else (lines c.w.toNat).y1) + c.w.toNat ≤ 3 * c.w.toNat := by
    split
    · exact hlineY0
    · exact hlineY1
  refine ⟨_, h.pixels r k hr hk, ?_⟩
  rw [← hin.source _ (line_inside hh hgroup hluma hk), ← hin.source _ (line_inside hh hgroup hlineU hcol),
    ← hin.source _ (line_inside hh hgroup hlineV hcol)]
  exact h'.pixels r k hr hk

/-- Every supported command has all its outcomes, with an image that its inputs determine. -/
theorem outcomes_imageFromInputs (i : Instr) (hi : classOf i ≠ .unsupported) :
    ∃ (make : CmdFields → Instr) (result : CmdFields → State → State → Prop), make i.fields = i ∧
      Outcomes (classOf i) make (scratchNeed (classOf i)) result ∧ ImageFromInputs (classOf i) result := by
  have hdirect : ∀ {native : Order} {make : CmdFields → Instr},
      (∀ c s, exec (make c) s = .next (runCommand .packedRgb24 c (directPipeline native c) s)) →
      Outcomes .packedRgb24 make (fun _ => 0) (DirectResult native) :=
    fun hexec => (direct_outcomes hexec).mono fun _ _ _ ⟨⟨himage, _⟩, _⟩ => himage
  cases i with
  | convertRGB3 c => exact ⟨.convertRGB3, _, rfl, hdirect fun _ _ => rfl, directResult_imageFromInputs _⟩
  | convertBGR3 c => exact ⟨.convertBGR3, _, rfl, hdirect fun _ _ => rfl, directResult_imageFromInputs _⟩
  | convertRGBP c => exact ⟨.convertRGBP, _, rfl, rgbpUnpacksEveryPixel.2, rgb565Result_imageFromInputs⟩
  | convertYUYV c =>
    exact ⟨.convertYUYV, _, rfl, packed_outcomes_image (pos := posYUYV) fun _ _ => rfl,
      packedResult_imageFromInputs (by decide)⟩
  | convertYVYU c =>
    exact ⟨.convertYVYU, _, rfl, packed_outcomes_image (pos := posYVYU) fun _ _ => rfl,
      packedResult_imageFromInputs (by decide)⟩
  | convertUYVY c =>
    exact ⟨.convertUYVY, _, rfl, packed_outcomes_image (pos := posUYVY) fun _ _ => rfl,
      packedResult_imageFromInputs (by decide)⟩
  | convertYU12 c =>
    exact ⟨.convertYU12, _, rfl, planar_outcomes_image (pl := fun n => ⟨n, 5 * n / 4⟩) fun _ _ => rfl,
      planarResult_imageFromInputs (fun n => show n ≤ 5 * n / 4 by omega) fun _ => le_rfl⟩
  | convertYV12 c =>
    exact ⟨.convertYV12, _, rfl, planar_outcomes_image (pl := fun n => ⟨5 * n / 4, n⟩) fun _ _ => rfl,
      planarResult_imageFromInputs (fun _ => le_rfl) fun n => show n ≤ 5 * n / 4 by omega⟩
  | convertS501 c =>
    exact ⟨.convertS501, _, rfl, vendor_outcomes_image (lines := linesA) fun _ _ => rfl,
      vendorResult_imageFromInputs fun _ => .inl rfl⟩
  | convertS505 c =>
    exact ⟨.convertS505, _, rfl, vendor_outcomes_image (lines := linesB) fun _ _ => rfl,
      vendorResult_imageFromInputs fun _ => .inr (.inl rfl)⟩
  | convertS508 c =>
    exact ⟨.convertS508, _, rfl, vendor_outcomes_image (lines := linesC) fun _ _ => rfl,
      vendorResult_imageFromInputs fun _ => .inr (.inr rfl)⟩
  | convertUnsupported code c => exact absurd rfl hi

/-- Two successes of one command on the same inputs end alike. -/
theorem exec_success_sameEnd {i : Instr} {s s' : State} (hi : classOf i ≠ .unsupported) (hs : s.ScratchFree)
    (hs' : s'.ScratchFree) (hin : SameInputs (classOf i) i.fields s s') (hv : Valid (classOf i) i.fields)
    (hc : s.CapHolds (scratchNeed (classOf i) i.fields)) (hc' : s'.CapHolds (scratchNeed (classOf i) i.fields)) :
    ∃ t t', exec i s = .next t ∧ exec i s' = .next t' ∧ SameEnd i.fields t t' := by
  obtain ⟨make, result, hmake, houtcomes, himage⟩ := outcomes_imageFromInputs i hi
  obtain ⟨_, _, hsuccess⟩ := houtcomes i.fields s hs
  obtain ⟨_, _, hsuccess'⟩ := houtcomes i.fields s' hs'
  obtain ⟨t, ht, hsucc, hresult⟩ := hsuccess hv hc
  obtain ⟨t', ht', hsucc', hresult'⟩ := hsuccess' hv hc'
  rw [hmake] at ht ht'
  exact ⟨t, t', ht, ht', hsucc.sameEnd hsucc' (himage i.fields s s' t t' hv hin hresult hresult')⟩

/-- Two failures of one command of the same kind end alike. -/
theorem exec_failed_sameEnd {i : Instr} {k : ErrKind} {s s' : State}
    (h : ∃ t, exec i s = .next t ∧ Failed k i.fields s t) (h' : ∃ t', exec i s' = .next t' ∧ Failed k i.fields s' t') :
    ∃ t t', exec i s = .next t ∧ exec i s' = .next t' ∧ SameEnd i.fields t t' := by
  obtain ⟨t, ht, hfail⟩ := h
  obtain ⟨t', ht', hfail'⟩ := h'
  exact ⟨t, t', ht, ht', hfail.sameEnd hfail'⟩

/-- Settles O43: which end a command has depends on its class, its fields and SCRATCH_CAP; a failure is fixed by its kind,
the image of a success by the inputs (`outcomes_imageFromInputs`). -/
theorem commandDependsOnlyOnItsInputs : Obligations.CommandDependsOnlyOnItsInputs := by
  intro i s s' hs hs' hparams hsource
  have hcap : ∀ n, s'.CapHolds n ↔ s.CapHolds n := fun n => by rw [State.CapHolds, State.CapHolds, hparams]
  by_cases hi : classOf i = .unsupported
  · exact exec_failed_sameEnd (exec_unsupported hi s) (exec_unsupported hi s')
  by_cases hv : Valid (classOf i) i.fields
  · by_cases hc : s.CapHolds (scratchNeed (classOf i) i.fields)
    · exact exec_success_sameEnd hi hs hs' ⟨hparams, hsource⟩ hv hc ((hcap _).2 hc)
    · exact exec_failed_sameEnd (exec_refused hi hs hv hc) (exec_refused hi hs' hv (mt (hcap _).1 hc))
  · exact exec_failed_sameEnd (exec_invalid hi hs hv) (exec_invalid hi hs' hv)

/-! ### The scratch controller (46_dispatcher.md R217, R218) -/

/-- A granted request changes its buffer and the counter of draws only. -/
theorem granted_frame (b : Buf) (n : Nat) (s : State) :
    let t := granted b n s
    (t.buf b).alloc = true ∧ (t.buf b).size = n ∧ t = { s.withBuf b (t.buf b) with draws := t.draws } := by
  cases b <;> exact ⟨rfl, rfl, rfl⟩

/-- Settles O45: the two answers of `alloc`, by whether the request fits. -/
theorem allocGrantsWhatFits : Obligations.AllocGrantsWhatFits :=
  fun b n s => ⟨fun h => ⟨_, alloc_granted h, granted_frame b n s⟩, fun h => alloc_refused h, rfl⟩

/-! ### Accesses that do not run the engine (46_dispatcher.md R210) -/

/-- What belongs to the engine is the same: STATUS, ERRMSG, the phase, the latches, the working registers, both scratch
buffers and DST (10_state.md R34, R36). -/
def SameEngine (s t : State) : Prop :=
  t.status = s.status ∧ t.errmsg = s.errmsg ∧ t.phase = s.phase ∧ t.latch = s.latch ∧ t.work = s.work ∧
    t.scry = s.scry ∧ t.scrr = s.scrr ∧ t.dst = s.dst ∧ t.dstJunk = s.dstJunk

theorem SameEngine.rfl (s : State) : SameEngine s s := by
  refine ⟨?_, ?_, ?_, ?_, ?_, ?_, ?_, ?_, ?_⟩ <;> rfl

/-- The command registers, SRC, the pending accesses and the reply do not belong to the engine. -/
theorem sameEngine_hostSide (s : State) (format width height srcLen dstLen : Word) (order : Order) (src : Memory)
    (bus : List HostOp) (reply : Reply) :
    SameEngine s { s with format := format, width := width, height := height, srcLen := srcLen, dstLen := dstLen,
                          order := order, src := src, bus := bus, reply := reply } := SameEngine.rfl s

theorem writeReg_sameEngine (off : Nat) (v : Word) (s : State) : SameEngine s (writeReg off v s) := by
  rw [writeReg_frame off v s]
  exact sameEngine_hostSide s ..

/-- A register write that answers a next state starts a command or leaves the engine alone. -/
theorem hostWrite_sameEngine {off : Nat} {v : Word} {s t : State} (h : hostWrite off v s = .next t) :
    (off = 0x14 ∧ startBit v = true ∧ s.status.busy = false) ∨ SameEngine s t := by
  rcases hostWrite_cases h with ⟨_, rfl⟩ | ⟨_, _, _, rfl⟩ | ⟨hb, hoff, hv, _⟩ | ⟨_, _, rfl⟩
  · exact .inr (SameEngine.rfl _)
  · exact .inr (sameEngine_hostSide s ..)
  · exact .inl ⟨hoff, hv, hb⟩
  · exact .inr (writeReg_sameEngine off v s)

/-- An access that answers a next state is reset, starts a command, or leaves the engine alone. -/
theorem hostAccess_sameEngine {op : HostOp} {s t : State} (h : hostAccess op s = .next t) :
    op = .reset ∨ (∃ v, op = .wr 0x14 v ∧ startBit v = true ∧ s.status.busy = false) ∨ SameEngine s t := by
  cases op with
  | wr off v =>
    rcases hostWrite_sameEngine h with ⟨rfl, hv, hb⟩ | hsame
    · exact .inr (.inl ⟨v, rfl, hv, hb⟩)
    · exact .inr (.inr hsame)
  | rd off => rw [hostRead_cases h]; exact .inr (.inr (sameEngine_hostSide s ..))
  | loadSrc bytes => rw [hostLoadSrc_cases h]; exact .inr (.inr (sameEngine_hostSide s ..))
  | readDst n => rw [hostReadDst_cases h]; exact .inr (.inr (sameEngine_hostSide s ..))
  | reset => exact .inl rfl

/-- Settles O53: a step is the first pending access (`hostAccess_sameEngine`), or none; taking it from the queue leaves the
engine alone. -/
theorem onlyStartAndResetRunTheEngine : Obligations.OnlyStartAndResetRunTheEngine := by
  intro s t hs
  cases hbus : s.bus with
  | nil =>
    rw [step_idle hbus] at hs
    cases hs
    exact .inr (.inr (SameEngine.rfl s))
  | cons op rest =>
    rw [step_access hbus] at hs
    rcases hostAccess_sameEngine hs with rfl | ⟨v, rfl, hv, hb⟩ | hsame
    · exact .inl ⟨rest, rfl⟩
    · exact .inr (.inl ⟨v, rest, rfl, hv, hb⟩)
    · exact .inr (.inr hsame)

end Sys2Proof.Machine
end

section
/-! PROOF. The statements about exceptions (60_exceptions.md): the messages, the failure sequence, and how a command
leaves ERRMSG. -/

namespace Sys2Proof.Machine

/-- Settles O24: the step of an empty queue. -/
theorem noAccessLeavesTheMachineIdle : Obligations.NoAccessLeavesTheMachineIdle := fun _ => step_idle

/-! ### The messages (60_exceptions.md R246) -/

/-- Every message is short enough for ERRMSG to end it, so it reads as its text when no character ends it early. -/
theorem errorText_messageText {k : ErrKind} (hz : ∀ b ∈ messageText k, b ≠ 0) :
    errorText (messageBytes (messageText k)) = messageText k :=
  errorText_messageBytes (Nat.lt_of_le_of_lt (messageText_length k) (by decide)) hz

/-- Settles O47: no fixed text has a 0x00 in it, so only the tag of an unsupported code can end its message early. -/
theorem messagesReadAsTheirTexts : Obligations.MessagesReadAsTheirTexts := by
  refine ⟨errorText_messageText (k := .allocationFailure) (by decide),
    errorText_messageText (k := .invalidArgument) (by decide), fun code htag => ?_⟩
  exact errorText_messageText (k := .unsupportedFormat code)
    (List.forall_mem_append.2 ⟨by decide, htag⟩)

/-! ### The failure sequence (60_exceptions.md R247) -/

/-- A DST byte inside the range that a failure leaves unspecified: the value of a new draw, which the newest entry of
the ranges names. -/
theorem byteAt_spoilDst_inside {n a : Nat} (s : State) (h : a < n) :
    (spoilDst n s).byteAt .dst a = Config.freshByte s.draws a := by
  have hn : n ≠ 0 := Nat.ne_zero_of_lt h
  have hdropped : (s.dst.dropBelow n).read a = none := by
    rw [Memory.read_dropBelow, if_neg (Nat.not_le.2 h)]
  simp [spoilDst, hn, State.byteAt, hdropped, junkByte, h]

theorem byteAt_raise_inside {n a : Nat} (k : ErrKind) (s : State) (h : a < n) :
    (raise k n s).byteAt .dst a = Config.freshByte s.draws a := by
  rw [← byteAt_spoilDst_inside s h]
  simp only [State.byteAt, raise_dst, raise_dstJunk]

/-- Settles O46: the fields after `raise`, and DST on both sides of the range it leaves unspecified. -/
theorem raiseLeavesTheFailureState : Obligations.RaiseLeavesTheFailureState :=
  fun k n s => ⟨raise_scry k n s, raise_scrr k n s, fun j => by rw [raise_errmsg, messageBytes_get], raise_phase k n s,
    raise_status k n s, kept_raise k n s, raise_work k n s, fun _ => byteAt_raise_inside k s, fun _ => byteAt_raise k s⟩

/-! ### ERRMSG after a command -/

/-- A command of a supported code never ends in UnsupportedFormat, from any state (46_dispatcher.md R215). -/
theorem exec_result_ne_unsupported {i : Instr} {s t : State} (hi : classOf i ≠ .unsupported) (he : exec i s = .next t) :
    t.status.result ≠ 1 := by
  obtain ⟨a, ha, _, hconf, _⟩ := exec_confined i hi s
  rw [exec_deterministic he ha]
  cases a with
  | done u => simp [statusOk]
  | raised k u =>
    obtain ⟨_, rfl | rfl⟩ := hconf <;> simp [statusFailed, resultCode]

/-- Settles O41: an unsupported code fails with its own message (`exec_unsupported`); any other command succeeds, or fails
with one of the other two kinds. -/
theorem errmsgChangesOnlyOnFailure : Obligations.ErrmsgChangesOnlyOnFailure := by
  intro i s t he
  by_cases hi : classOf i = .unsupported
  · obtain ⟨u, hu, hfail⟩ := exec_unsupported hi s
    obtain rfl := exec_deterministic he hu
    exact .inr (.inl ⟨by rw [hfail.status]; rfl, hfail.errmsg⟩)
  · rcases exec_ends he with ⟨k, hfail⟩ | ⟨hsucc, _⟩
    · have hresult : t.status.result = resultCode k := by rw [hfail.status]
      cases k with
      | unsupportedFormat code => exact absurd hresult (exec_result_ne_unsupported hi he)
      | allocationFailure => exact .inr (.inr (.inl ⟨hresult, hfail.errmsg⟩))
      | invalidArgument => exact .inr (.inr (.inr ⟨hresult, hfail.errmsg⟩))
    · exact .inl ⟨hsucc.result, hsucc.errmsg⟩

end Sys2Proof.Machine
end

section
/-! PROOF. The statements about reset (70_reset_and_hazards.md): the external reset from any state, and a START after reset. -/

namespace Sys2Proof.Machine

/-! ### The external reset (70_reset_and_hazards.md R270, R271) -/

theorem step_reset {s : State} {rest : List HostOp} (hs : s.bus = .reset :: rest) :
    step s = .next (resetPfc { s with bus := rest }) := step_access hs

@[simp] theorem resetPfc_bus (s : State) : (resetPfc s).bus = s.bus := by
  cases hb : s.status.busy <;> simp [resetPfc, hb]

theorem resetPfc_idle (s : State) : (resetPfc s).Idle := ⟨rfl, rfl, rfl, rfl⟩

/-- With no command running reset leaves DST to the host. -/
theorem byteAt_resetPfc_of_notBusy {s : State} (hb : s.status.busy = false) (a : Nat) :
    (resetPfc s).byteAt .dst a = s.byteAt .dst a := by
  simp [resetPfc, hb, State.byteAt]

/-- Reset of a running command makes its DST range unspecified and no other byte of DST. -/
theorem byteAt_resetPfc_beyond (s : State) {a : Nat} (h : s.latch.dstLen.toNat ≤ a) :
    (resetPfc s).byteAt .dst a = s.byteAt .dst a := by
  cases hb : s.status.busy with
  | false => exact byteAt_resetPfc_of_notBusy hb a
  | true =>
    calc (resetPfc s).byteAt .dst a
        = (spoilDst s.latch.dstLen.toNat s).byteAt .dst a := by simp [resetPfc, hb, State.byteAt]
      _ = s.byteAt .dst a := byteAt_spoilDst s h

/-- Settles O49: the access is `resetPfc`, whose registers are those of `State.reset`; what it keeps of SRC, DST and the
parameters are the lemmas about it. -/
theorem resetRestoresTheTable : Obligations.ResetRestoresTheTable := by
  intro s rest hs
  obtain ⟨hparams, hsrc⟩ := resetPfc_source { s with bus := rest }
  exact ⟨_, step_reset hs, rfl, rfl, rfl, rfl, rfl, rfl, rfl, State.reset_errmsg, resetPfc_idle _, hsrc, hparams,
    resetPfc_bus _, fun hb => byteAt_resetPfc_of_notBusy (s := { s with bus := rest }) hb,
    fun _ => byteAt_resetPfc_beyond { s with bus := rest }⟩

/-! ### A START without set-up (70_reset_and_hazards.md R272) -/

/-- A command started with an unlisted code in FORMAT fails with UnsupportedFormat (46_dispatcher.md R221). -/
theorem startCommand_unlisted {s : State} (h : s.format ∉ supportedCodes) :
    ∃ t, startCommand s = .next t ∧
      Failed (.unsupportedFormat s.format) ⟨s.width, s.height, s.srcLen, s.dstLen, s.order⟩ (latchCommand s) t := by
  have hinstr : latchedInstr (latchCommand s).latch =
      .convertUnsupported s.format ⟨s.width, s.height, s.srcLen, s.dstLen, s.order⟩ := by
    rw [latchedInstr_eq]
    exact (unlistedCodesAreUnsupported.1 _ _).2 h
  rw [startCommand, hinstr]
  exact exec_unsupported rfl (latchCommand s)

/-- The bytes a failure leaves in ERRMSG are the whole of its message. -/
theorem Failed.errmsg_eq {k : ErrKind} {c : CmdFields} {s t : State} (h : Failed k c s t) :
    t.errmsg = messageBytes (messageText k) := by
  apply Vector.ext
  intro i hi
  exact (h.errmsg ⟨i, hi⟩).trans (messageBytes_get _ ⟨i, hi⟩).symm

/-- The tag of the code 0 is four 0x00, so its message ends before the tag (60_exceptions.md R246). -/
theorem errorText_unsupported_zero : errorText (messageBytes (messageText (.unsupportedFormat 0))) = unsupportedText := by
  decide

/-- Settles O50: after reset FORMAT holds the unlisted code 0, so the command fails; DST_LEN is 0, so every byte of DST lies
beyond the range that a failure leaves unspecified. -/
theorem startAfterResetIsUnsupported : Obligations.StartAfterResetIsUnsupported := by
  intro v hv
  have hcode : State.reset.format ∉ supportedCodes := by decide
  obtain ⟨t, ht, hfail⟩ := startCommand_unlisted
    (s := { State.reset with bus := [], order := orderOfBit (v.getLsbD 0) }) hcode
  refine ⟨t, (step_start rfl rfl hv).trans ht, ?_, fun a => hfail.beyond a (Nat.zero_le a), ?_⟩
  · rw [readReg_status, hfail.status]
    exact (by decide : statusWord ⟨false, true, 1⟩ = 6)
  · rw [hfail.errmsg_eq]
    exact errorText_unsupported_zero

end Sys2Proof.Machine
end
